-- ==== Sys2Proof/Word.lean ====
section
/-! DEFINITION. The two widths of the avm core: 16-bit registers and 8-bit bytes (00_scope.md R5). -/

namespace Sys2Proof

/-- The contents of a register: 16 bits, unsigned (10_state.md R10). -/
abbrev Word := BitVec 16

/-- One byte of memory (20_memory.md R28). -/
abbrev Byte := BitVec 8

end Sys2Proof
end

