-- ==== Sys2Proof/Config.lean ====
section
/-! DEFINITION. What is fixed for the machine. The spec leaves no value free
(93_implementation_defined.md, end of part 1), so there is no opaque constant here. -/

namespace Sys2Proof.Config

/-- The largest `LEN` (10_state.md R21; 92_eei_decisions.md D2). -/
abbrev maxLen : Nat := 65536

/-- What an address below `LEN` that the memory list does not name reads as.
DESIGN CHOICE (log entry 3), unsafe: every byte below `LEN` is defined by LOAD (10_state.md R22), and the list
leaves out the ones that are zero. -/
def unlistedByte : Byte := 0x00

end Sys2Proof.Config
end

