-- ==== Sys2Proof/Syntax.lean ====
section
/-! DEFINITION. The instructions: one constructor per row of spec/opcode_table.json (30_encoding.md R53). -/

namespace Sys2Proof

/-- An instruction with its operands. Register operands are implicit in the opcode (30_encoding.md R55). -/
inductive Instr where
  /-- `MOV_R1 imm16`, opcode 0x10 (41_data_movement.md R80). -/
  | movR1 (imm : Word)
  /-- `MOV_R2 imm16`, opcode 0x11 (41_data_movement.md R81). -/
  | movR2 (imm : Word)
  /-- `ADD_R1_R2`, opcode 0x12 (42_arithmetic.md R83). -/
  | addR1R2
  deriving DecidableEq, Repr

end Sys2Proof
end

