-- ==== Sys2Proof/WellFormed.lean ====
section
/-! DEFINITION. What the spec asks of an instruction and of a program image. -/

namespace Sys2Proof

/-- "all 65536 values are legal" for an immediate (30_encoding.md R54, R59) and no instruction has another operand
(R55): no instruction of this set is ill-formed. -/
def Instr.wellFormed : Instr → Bool
  | .movR1 _ => true
  | .movR2 _ => true
  | .addR1R2 => true

/-- A program is a list of bytes (30_encoding.md R61); the one thing asked of it is its length
(50_interfaces.md R91): its bytes are checked by nothing before execution reaches them
(70_reset_and_hazards.md R127). -/
def imageWellFormed (image : List Byte) : Bool :=
  decide (image.length ≤ Config.maxLen)

end Sys2Proof
end

