-- ==== Sys2Proof/Decode.lean ====
section
/-! DEFINITION. The decoder and the encoder, both written from the tables of 30_encoding.md. -/

namespace Sys2Proof

/-! ### The byte order of a 16-bit value (20_memory.md R35) -/

/-- The 16-bit value of two consecutive bytes: the byte at the lower address is bits 15:8
(20_memory.md R35; the spec's decision D1). -/
def joinBytes (hi lo : Byte) : Word := hi ++ lo

/-- Bits 15:8, the byte at the lower address. -/
def hiByte (v : Word) : Byte := v.extractLsb' 8 8

/-- Bits 7:0, the byte at the higher address. -/
def loByte (v : Word) : Byte := v.extractLsb' 0 8

/-! ### The decode function -/

/-- The decoder's output for a known opcode byte: the instruction variant (30_encoding.md R63). -/
inductive Opcode where
  | movR1
  | movR2
  | addR1R2
  deriving DecidableEq, Repr

/-- The decode function of 40_fetch_decode_step.md R65: it looks at the opcode byte alone, all eight bits of it
(30_encoding.md R53), and fails on each of the 253 other values. -/
def decodeOpcode (b : Byte) : Option Opcode :=
  if b = 0x10 then some .movR1
  else if b = 0x11 then some .movR2
  else if b = 0x12 then some .addR1R2
  else none

/-- How many operand bytes follow the opcode byte (30_encoding.md R53, R63). -/
def Opcode.operandBytes : Opcode → Nat
  | .movR1 => 2
  | .movR2 => 2
  | .addR1R2 => 0

/-- The instruction's length in bytes (30_encoding.md R51, R56). -/
def Opcode.width (op : Opcode) : Nat := 1 + op.operandBytes

/-- The variant of an instruction. -/
def Instr.opcode : Instr → Opcode
  | .movR1 _ => .movR1
  | .movR2 _ => .movR2
  | .addR1R2 => .addR1R2

/-- What the decoder says of a list of bytes. -/
inductive Decoded where
  /-- An instruction and the bytes after it. -/
  | ok (i : Instr) (rest : List Byte)
  /-- The first byte matches no row of the table (30_encoding.md R57). -/
  | unknownOpcode (b : Byte)
  /-- The list ends before byte `offset` of the instruction. -/
  | truncated (offset : Nat)
  deriving DecidableEq, Repr

/-- The two operand bytes of format I16, high byte first (30_encoding.md R52, R54). Any two values are legal (R59). -/
def decodeImm (make : Word → Instr) : List Byte → Decoded
  | [] => .truncated 1
  | [_] => .truncated 2
  | hi :: lo :: rest => .ok (make (joinBytes hi lo)) rest

/-- The decoder on bytes, total: the opcode byte is classified first and alone (40_fetch_decode_step.md R66), the
operand bytes are taken afterwards. -/
def decode : List Byte → Decoded
  | [] => .truncated 0
  | b :: rest =>
    match decodeOpcode b with
    | none => .unknownOpcode b
    | some .movR1 => decodeImm .movR1 rest
    | some .movR2 => decodeImm .movR2 rest
    | some .addR1R2 => .ok .addR1R2 rest

/-! ### The encoder -/

/-- The bytes of an instruction, lowest address first (30_encoding.md R52, R53). -/
def encode : Instr → List Byte
  | .movR1 imm => [0x10, hiByte imm, loByte imm]
  | .movR2 imm => [0x11, hiByte imm, loByte imm]
  | .addR1R2 => [0x12]

/-! ### The host's numbering of an instruction's bits -/

/-- The three bytes an instruction word stands for: bits 7..0 are the byte at the lowest address, and every bit
from `nbits` up is zero. -/
def tableWordBytes (nbits w : Nat) : List Byte :=
  let v := w % 2 ^ nbits
  [BitVec.ofNat 8 v, BitVec.ofNat 8 (v / 256), BitVec.ofNat 8 (v / 65536)]

/-- The instruction the decoder reads from a row of spec/opcode_table.json. -/
def decodeTableWord (nbits w : Nat) : Option Instr :=
  match decode (tableWordBytes nbits w) with
  | .ok i _ => some i
  | .unknownOpcode _ => none
  | .truncated _ => none

end Sys2Proof
end

