-- ==== Sys2Proof/Machine/State.lean ====
section
/-! DEFINITION. The whole state of the core (10_state.md): ten registers, the byte memory with its length, and the
fault latch. -/

namespace Sys2Proof.Machine

/-- The closed set of registers, in enumeration order (10_state.md R9). -/
inductive Reg where
  | ip | acc | r1 | r2 | r3 | r4 | r5 | r6 | r7 | r8
  deriving DecidableEq, Repr

/-- The register file: one 16-bit value for each register at all times (10_state.md R10). -/
structure RegFile where
  ip  : Word
  acc : Word
  r1  : Word
  r2  : Word
  r3  : Word
  r4  : Word
  r5  : Word
  r6  : Word
  r7  : Word
  r8  : Word
  deriving DecidableEq, Repr

/-- The two kinds of fault (60_exceptions.md R102), as the fault latch records them and as a failed host access
reports them. They are raised by `fetch` (a step) and by the memory accesses; as the outcome `fault` of a step they
are answered only by a step taken while the latch holds them (40_fetch_decode_step.md R72), which is safe: the
machine stops where the spec says it does nothing. -/
inductive Fault where
  /-- The byte fetched as an opcode at `addr` matches no row of the table (60_exceptions.md R103). Raised by the
  decode sub-step of a step. Safe: the spec names the fault. -/
  | unknownOpcode (byte : Byte) (addr : Nat)
  /-- An access touches `addr`, which is not below `LEN` (60_exceptions.md R104). Raised by the opcode fetch and the
  immediate fetch of a step, and reported by the host's memory accesses. Safe: the spec names the fault. -/
  | outOfBounds (addr : Nat)
  deriving DecidableEq, Repr

/-- What the model gives no meaning to. -/
inductive Refusal where
  /-- An instruction without a meaning. No arm of `exec` answers it. Safe. -/
  | notModelled (mnemonic : String)
  /-- LOAD of more than 65536 bytes (50_interfaces.md R91). Raised by the host's LOAD only. Safe. -/
  | imageTooLong (length : Nat)
  /-- A second LOAD, or a LOAD after a STEP: "a model refuses it" (70_reset_and_hazards.md R133). Raised by the
  host's LOAD only. Safe. -/
  | loadNotAllowed
  deriving DecidableEq, Repr

/-- The memory's contents, as a list of addresses and bytes, addresses rising, no zero byte listed
(`Memory.wf`; log entry 3). -/
abbrev Memory := List Host.Cell

/-- The state of the core. "Nothing else is state" (10_state.md, opening). -/
structure State where
  /-- The ten registers (R9). -/
  regs  : RegFile
  /-- The bytes at the addresses below `len` (R22). -/
  mem   : Memory
  /-- `LEN`, the memory's current length, at most 65536 (R21; log entry 8). -/
  len   : Nat
  /-- The fault latch (R23): `none` is running, `some f` is faulted. -/
  fault : Option Fault
  deriving DecidableEq, Repr

/-- The register file after reset: every register 0 (10_state.md R26). -/
def RegFile.reset : RegFile :=
  { ip := 0, acc := 0, r1 := 0, r2 := 0, r3 := 0, r4 := 0, r5 := 0, r6 := 0, r7 := 0, r8 := 0 }

/-- The state after reset (10_state.md R26; 70_reset_and_hazards.md R123). -/
def State.reset : State :=
  { regs := RegFile.reset, mem := [], len := 0, fault := none }

end Sys2Proof.Machine
end

