-- ==== Sys2Proof/Machine/Ops.lean ====
section
/-! DEFINITION. The named operations over registers and memory, and fault entry. -/

namespace Sys2Proof.Machine

/-! ### Registers (10_state.md R11, R12) -/

/-- Register read: total, changes nothing (10_state.md R11). -/
def RegFile.get (f : RegFile) : Reg → Word
  | .ip => f.ip
  | .acc => f.acc
  | .r1 => f.r1
  | .r2 => f.r2
  | .r3 => f.r3
  | .r4 => f.r4
  | .r5 => f.r5
  | .r6 => f.r6
  | .r7 => f.r7
  | .r8 => f.r8

/-- Register write: total, overwrites unconditionally (10_state.md R12). -/
def RegFile.set (f : RegFile) (r : Reg) (v : Word) : RegFile :=
  match r with
  | .ip => { f with ip := v }
  | .acc => { f with acc := v }
  | .r1 => { f with r1 := v }
  | .r2 => { f with r2 := v }
  | .r3 => { f with r3 := v }
  | .r4 => { f with r4 := v }
  | .r5 => { f with r5 := v }
  | .r6 => { f with r6 := v }
  | .r7 => { f with r7 := v }
  | .r8 => { f with r8 := v }

/-- `x[r]` (00_scope.md R7). -/
def State.reg (s : State) (r : Reg) : Word := s.regs.get r

/-- `x[r] <- v` (00_scope.md R7). -/
def State.setReg (s : State) (r : Reg) (v : Word) : State := { s with regs := s.regs.set r v }

/-- The address of the instruction a step is about to run, as a natural number (10_state.md R16, R17). -/
def State.addr (s : State) : Nat := (s.reg .ip).toNat

/-- The registers in enumeration order (10_state.md R9). -/
def Reg.all : List Reg := [.ip, .acc, .r1, .r2, .r3, .r4, .r5, .r6, .r7, .r8]

/-! ### The memory list -/

/-- The byte the list gives an address. -/
def Memory.get : Memory → Nat → Byte
  | [], _ => Config.unlistedByte
  | (a', b) :: m, a => if a' = a then b else Memory.get m a

/-- The list with the byte at one address replaced, in canonical form. -/
def Memory.put : Memory → Nat → Byte → Memory
  | [], a, b => if b = Config.unlistedByte then [] else [(a, b)]
  | (a', b') :: m, a, b =>
    if a < a' then
      if b = Config.unlistedByte then (a', b') :: m else (a, b) :: (a', b') :: m
    else if a = a' then
      if b = Config.unlistedByte then m else (a, b) :: m
    else (a', b') :: Memory.put m a b

/-- The list of the bytes of an image laid out from address `base`. -/
def Memory.ofBytes (base : Nat) : List Byte → Memory
  | [] => []
  | b :: bs =>
    if b = Config.unlistedByte then Memory.ofBytes (base + 1) bs
    else (base, b) :: Memory.ofBytes (base + 1) bs

/-- Addresses rise strictly from `lo` on, stay below `hi`, and no listed byte is what an unlisted address reads as. -/
def Memory.canonicalIn (lo hi : Nat) : Memory → Bool
  | [] => true
  | (a, b) :: m =>
    decide (lo ≤ a) && decide (a < hi) && decide (b ≠ Config.unlistedByte) && Memory.canonicalIn (a + 1) hi m

/-- The canonical form of a memory of `len` bytes. -/
def Memory.wf (m : Memory) (len : Nat) : Bool := m.canonicalIn 0 len

/-- The memory is in canonical form and names no address at or above `LEN`, and `LEN` is in its range
(10_state.md R21, R22). -/
def State.memWf (s : State) : Bool := s.mem.wf s.len && decide (s.len ≤ Config.maxLen)

/-! ### The four access primitives (20_memory.md, section 2) -/

/-- `MemRead(a, 1)` (20_memory.md R31). The address is compared with `LEN` untruncated (R50). -/
def State.read8 (s : State) (a : Nat) : Except Fault Byte :=
  if a < s.len then .ok (s.mem.get a) else .error (.outOfBounds a)

/-- `MemRead(a, 2)` (20_memory.md R32): first byte checked first, big-endian. -/
def State.read16 (s : State) (a : Nat) : Except Fault Word :=
  match s.read8 a with
  | .error f => .error f
  | .ok hi =>
    match s.read8 (a + 1) with
    | .error f => .error f
    | .ok lo => .ok (joinBytes hi lo)

/-- The state with the byte at an address replaced, unchecked. -/
def State.putByte (s : State) (a : Nat) (b : Byte) : State := { s with mem := s.mem.put a b }

/-- `MemWrite(a, 1, b)` (20_memory.md R33): never grows the memory. -/
def State.write8 (s : State) (a : Nat) (b : Byte) : Except Fault State :=
  if a < s.len then .ok (s.putByte a b) else .error (.outOfBounds a)

/-- `MemWrite(a, 2, v)` (20_memory.md R34): both bytes checked before either is written, big-endian. -/
def State.write16 (s : State) (a : Nat) (v : Word) : Except Fault State :=
  if ¬ a < s.len then .error (.outOfBounds a)
  else if ¬ a + 1 < s.len then .error (.outOfBounds (a + 1))
  else .ok ((s.putByte a (hiByte v)).putByte (a + 1) (loByte v))

/-- The bytes at up to `n` addresses from `a`, ending at the first that is not below `LEN`. -/
def State.bytesAt (s : State) (a : Nat) : Nat → List Byte
  | 0 => []
  | n + 1 =>
    match s.read8 a with
    | .ok b => b :: s.bytesAt (a + 1) n
    | .error _ => []

/-! ### The sequencer and fault entry -/

/-- The address in a fault's record (60_exceptions.md R103, R104). -/
def Fault.addr : Fault → Nat
  | .unknownOpcode _ a => a
  | .outOfBounds a => a

/-- The sequencer: `x[IP] <- addr +16 width` (40_fetch_decode_step.md R71; 10_state.md R19). -/
def State.advance (s : State) (width : Nat) : State :=
  s.setReg .ip (s.reg .ip + BitVec.ofNat 16 width)

/-- The state with the fault latch set. -/
def State.latch (s : State) (f : Fault) : State := { s with fault := some f }

/-- Fault entry (60_exceptions.md R109): the latch becomes the fault and nothing else changes; control goes nowhere
and no state is saved anywhere else. The answer is a next state, since `Host.Outcome.fault` carries none
(log entry 1, DESIGN CHOICE). There is no return from a fault (R114): the latch is cleared by RESET alone. -/
def takeFault (f : Fault) (s : State) : Host.Outcome State Fault Refusal := .next (s.latch f)

/-- A step taken while the latch is set does nothing and returns the latched fault (40_fetch_decode_step.md R72): the
outcome `fault`, which leaves the state where it was. -/
def answerLatched (f : Fault) : Host.Outcome State Fault Refusal := .fault f

end Sys2Proof.Machine
end

