-- ==== Sys2Proof/Machine/Operands.lean ====
section
/-! DEFINITION. The operand forms: implicit registers and the 16-bit immediate (30_encoding.md R54, R55, R63). There
are no addressing modes and no memory operands (R55). -/

namespace Sys2Proof.Machine

/-- The destination register implicit in the opcode (30_encoding.md R63). -/
def destination : Opcode → Reg
  | .movR1 => .r1
  | .movR2 => .r2
  | .addR1R2 => .acc

/-- The immediate of format I16, the two bytes after the opcode byte at `addr` (30_encoding.md R54;
40_fetch_decode_step.md R68). The addresses do not wrap (20_memory.md R50). -/
def State.fetchImm (s : State) (addr : Nat) : Except Fault Word := s.read16 (addr + 1)

end Sys2Proof.Machine
end

