-- ==== Sys2Proof/Machine/Flags.lean ====
section
/-! DEFINITION. The core has no flags register, condition code, carry, zero, sign or overflow bit (10_state.md R20):
no flag is computed. What stands here is the adder, whose carry out is discarded. -/

namespace Sys2Proof.Machine

/-- `a +16 b`: the low 16 bits of the sum; the carry out of bit 15 is recorded nowhere (42_arithmetic.md R84). -/
def add16 (a b : Word) : Word := a + b

end Sys2Proof.Machine
end

