-- ==== Sys2Proof/Machine/Arithmetic.lean ====
section
/-! DEFINITION. The arithmetic family: `ADD_R1_R2` (42_arithmetic.md). -/

namespace Sys2Proof.Machine

/-- `ADD_R1_R2` (42_arithmetic.md R83): `x[ACC] <- x[R1] +16 x[R2]; x[IP] <- addr +16 1`. It cannot fault (R108 of
60_exceptions.md) and writes no flag. -/
def execAddR1R2 (s : State) : Host.Outcome State Fault Refusal :=
  .next ((s.setReg (destination .addR1R2) (add16 (s.reg .r1) (s.reg .r2))).advance (Opcode.width .addR1R2))

end Sys2Proof.Machine
end

