-- ==== Sys2Proof/Machine/DataMovement.lean ====
section
/-! DEFINITION. The data movement family: `MOV_R1` and `MOV_R2` (41_data_movement.md). The immediate has been fetched
when a meaning runs: the operand fetch and its faults are `fetch`'s (log entry 6). -/

namespace Sys2Proof.Machine

/-- What the two moves share: destination first, then `IP` (40_fetch_decode_step.md R69). -/
def moveImm (op : Opcode) (imm : Word) (s : State) : Host.Outcome State Fault Refusal :=
  .next ((s.setReg (destination op) imm).advance op.width)

/-- `MOV_R1` (41_data_movement.md R80): `x[R1] <- imm; x[IP] <- addr +16 3`. -/
def execMovR1 (imm : Word) (s : State) : Host.Outcome State Fault Refusal := moveImm .movR1 imm s

/-- `MOV_R2` (41_data_movement.md R81): `x[R2] <- imm; x[IP] <- addr +16 3`. -/
def execMovR2 (imm : Word) (s : State) : Host.Outcome State Fault Refusal := moveImm .movR2 imm s

end Sys2Proof.Machine
end

