-- ==== Sys2Proof/Machine/Dispatch.lean ====
section
/-! DEFINITION. The dispatch of 40_fetch_decode_step.md R64, sub-step 4. -/

namespace Sys2Proof.Machine

def exec (i : Instr) (s : State) : Host.Outcome State Fault Refusal :=
  match i with
  | .movR1 imm => Sys2Proof.Machine.execMovR1 imm s
  | .movR2 imm => Sys2Proof.Machine.execMovR2 imm s
  | .addR1R2 => Sys2Proof.Machine.execAddR1R2 s

end Sys2Proof.Machine
end

