-- ==== Sys2Proof/Machine/Fetch.lean ====
section
/-! DEFINITION. Everything of a step but the three meanings: the latch test, the opcode fetch, the decode and the
operand fetch (40_fetch_decode_step.md R64 to R68). -/

namespace Sys2Proof.Machine

/-- The operand fetch of a move: the immediate, or the fault of the read (40_fetch_decode_step.md R68). -/
def State.fetchMove (s : State) (make : Word → Instr) : Except Fault Instr :=
  match s.fetchImm s.addr with
  | .error f => .error f
  | .ok imm => .ok (make imm)

/-- Sub-steps 1 to 3 and the reads of sub-step 4 (40_fetch_decode_step.md R64), in the order of R69: the opcode byte,
the decode of that byte alone (R66), then the operand bytes its variant asks for. The faults come out in the order of
60_exceptions.md R111. -/
def State.fetch (s : State) : Except Fault Instr :=
  match s.read8 s.addr with
  | .error f => .error f
  | .ok b =>
    match decodeOpcode b with
    | none => .error (.unknownOpcode b s.addr)
    | some .movR1 => s.fetchMove .movR1
    | some .movR2 => s.fetchMove .movR2
    | some .addR1R2 => .ok .addR1R2

/-- The step of 40_fetch_decode_step.md R64 over the meanings `run`: the latch is tested first (R72), a fault of the
fetch is taken (60_exceptions.md R109), else the instruction runs. -/
def stepWith (run : Instr → State → Host.Outcome State Fault Refusal) (s : State) :
    Host.Outcome State Fault Refusal :=
  match s.fault with
  | some f => answerLatched f
  | none =>
    match s.fetch with
    | .error f => takeFault f s
    | .ok i => run i s

/-- The bytes placed from address `a` on, those at or above 65536 left out (no such address exists, 10_state.md
R21). -/
def Memory.place (m : Memory) (a : Nat) : List Byte → Memory
  | [] => m
  | b :: bs => Memory.place (if a < Config.maxLen then m.put a b else m) (a + 1) bs

/-- The state with the given bytes at `IP`, `LEN` raised to cover them where it is too small, and the latch clear:
what a fetch of them needs (log entry 7). -/
def State.placeAtIp (s : State) (bytes : List Byte) : State :=
  { s with
    mem := s.mem.place s.addr bytes
    len := max s.len (min Config.maxLen (s.addr + bytes.length))
    fault := none }

end Sys2Proof.Machine
end

