-- ==== Sys2Proof/Machine/Step.lean ====
section
/-! DEFINITION. The step (40_fetch_decode_step.md R64) and the placing of one instruction for the host's checks. -/

namespace Sys2Proof.Machine

/-- One step of the core: `Step(S)` of 40_fetch_decode_step.md R64. -/
def step (s : State) : Host.Outcome State Fault Refusal := stepWith exec s

/-- `s` with one instruction, given in the opcode table's numbering, where the next step fetches it. It stands for
the load of a program (log entry 7). -/
def State.withFetchWord (s : State) (nbits w : Nat) : State := s.placeAtIp (tableWordBytes nbits w)

end Sys2Proof.Machine
end

