-- ==== Sys2Proof/Machine/Transactions.lean ====
section
/-! DEFINITION. The host interface at transaction level (50_interfaces.md): one function over the nine transactions,
each atomic, none during a step (R88, R94). -/

namespace Sys2Proof.Machine

/-! ### What passes at the interface -/

/-- The result of a step (40_fetch_decode_step.md R73). -/
inductive StepResult where
  | ok
  | fault (f : Fault)
  deriving DecidableEq, Repr

/-- The result of a run with the number of successful steps (40_fetch_decode_step.md R76). -/
inductive RunResult where
  | faulted (f : Fault) (n : Nat)
  | budgetExhausted (n : Nat)
  deriving DecidableEq, Repr

/-- The two access widths (20_memory.md R39). -/
inductive AccessWidth where
  | one
  | two
  deriving DecidableEq, Repr

/-- A value read from or written to memory by the host, of one width or the other. -/
inductive Datum where
  | byte (b : Byte)
  | word (v : Word)
  deriving DecidableEq, Repr

/-- The nine transactions (50_interfaces.md R88). RESET takes no capacity: it has no effect (20_memory.md R43). -/
inductive Transaction where
  | reset
  | load (image : List Byte)
  | step
  | run (budget : Nat)
  | regRead (r : Reg)
  | regWrite (r : Reg) (v : Word)
  | memRead (a : Nat) (w : AccessWidth)
  | memWrite (a : Nat) (d : Datum)
  | faultRead
  deriving DecidableEq, Repr

/-- What a transaction returns to the host. -/
inductive Response where
  /-- RESET, LOAD, REG_WRITE and a MEM_WRITE that succeeded. -/
  | done
  | stepped (r : StepResult)
  | ran (r : RunResult)
  | reg (v : Word)
  | mem (d : Datum)
  /-- A failed host access of memory; the latch is not set (50_interfaces.md R98, R99). -/
  | failed (f : Fault)
  /-- FAULT_READ: the latch and `LEN` (50_interfaces.md R100). -/
  | latch (f : Option Fault) (len : Nat)
  deriving DecidableEq, Repr

/-- The core and the host's own duty: whether a LOAD is still allowed (70_reset_and_hazards.md R133; log entry 4). -/
structure Session where
  core     : State
  loadOpen : Bool
  deriving DecidableEq, Repr

/-! ### Steps and runs -/

/-- STEP: the state after one step and the result the step returns (50_interfaces.md R92). A step that leaves the
latch set is one that faulted. -/
def stepTransaction (s : State) : Except Refusal (State × StepResult) :=
  match step s with
  | .next t =>
    match t.fault with
    | none => .ok (t, .ok)
    | some f => .ok (t, .fault f)
  | .fault f => .ok (s, .fault f)
  | .refused r => .error r

/-- The loop of `Run(S, budget)` (40_fetch_decode_step.md R76) with `n` successful steps already taken. -/
def runFrom (n : Nat) : Nat → State → Except Refusal (State × RunResult)
  | 0, s => .ok (s, .budgetExhausted n)
  | k + 1, s =>
    match stepTransaction s with
    | .error r => .error r
    | .ok (t, .fault f) => .ok (t, .faulted f n)
    | .ok (t, .ok) => runFrom (n + 1) k t

/-- `Run(S, budget)` for a budget that is a number (40_fetch_decode_step.md R76). -/
def run (budget : Nat) (s : State) : Except Refusal (State × RunResult) := runFrom 0 budget s

/-- `Run(S, unbounded)` returns `Faulted(f, n)` and leaves `t` (40_fetch_decode_step.md R76; log entry 5). -/
def RunUnbounded (s t : State) (f : Fault) (n : Nat) : Prop :=
  ∃ budget, run budget s = .ok (t, .faulted f n)

/-! ### Load, launch, accesses and inspection -/

/-- The effect of LOAD on the core: `LEN <- n` and `mem[i] <- image[i]` (50_interfaces.md R91). -/
def State.load (s : State) (image : List Byte) : State :=
  { s with mem := Memory.ofBytes 0 image, len := image.length }

/-- `Launch(image)`: the state after RESET then LOAD (70_reset_and_hazards.md R125). -/
def launch (image : List Byte) : State := State.reset.load image

/-- MEM_READ (50_interfaces.md R98). -/
def State.hostRead (s : State) (a : Nat) : AccessWidth → Except Fault Datum
  | .one =>
    match s.read8 a with
    | .ok b => .ok (.byte b)
    | .error f => .error f
  | .two =>
    match s.read16 a with
    | .ok v => .ok (.word v)
    | .error f => .error f

/-- MEM_WRITE (50_interfaces.md R99). -/
def State.hostWrite (s : State) (a : Nat) : Datum → Except Fault State
  | .byte b => s.write8 a b
  | .word v => s.write16 a v

/-- Inspection: all ten registers in enumeration order, then the memory contents (50_interfaces.md R96). -/
def State.dump (s : State) : List Word × List Byte := (Reg.all.map s.reg, s.bytesAt 0 s.len)

/-! ### The transactions -/

/-- One transaction (50_interfaces.md R90 to R100). The answer is the session after it and what it returns, or a
refusal for a LOAD the spec gives no meaning (70_reset_and_hazards.md R133). -/
def transact (tx : Transaction) (h : Session) : Except Refusal (Session × Response) :=
  match tx with
  | .reset => .ok ({ core := State.reset, loadOpen := true }, .done)
  | .load image =>
    if ¬ h.loadOpen then .error .loadNotAllowed
    else if ¬ imageWellFormed image then .error (.imageTooLong image.length)
    else .ok ({ core := h.core.load image, loadOpen := false }, .done)
  | .step =>
    match stepTransaction h.core with
    | .error r => .error r
    | .ok (t, res) => .ok ({ core := t, loadOpen := false }, .stepped res)
  | .run budget =>
    match run budget h.core with
    | .error r => .error r
    | .ok (t, res) => .ok ({ core := t, loadOpen := h.loadOpen && budget == 0 }, .ran res)
  | .regRead r => .ok (h, .reg (h.core.reg r))
  | .regWrite r v => .ok ({ h with core := h.core.setReg r v }, .done)
  | .memRead a w =>
    match h.core.hostRead a w with
    | .ok d => .ok (h, .mem d)
    | .error f => .ok (h, .failed f)
  | .memWrite a d =>
    match h.core.hostWrite a d with
    | .ok t => .ok ({ h with core := t }, .done)
    | .error f => .ok (h, .failed f)
  | .faultRead => .ok (h, .latch h.core.fault h.core.len)

/-! ### Port codes -/

/-- The number of a register on the host port (50_interfaces.md R95). -/
def Reg.number : Reg → Nat
  | .ip => 0
  | .acc => 1
  | .r1 => 2
  | .r2 => 3
  | .r3 => 4
  | .r4 => 5
  | .r5 => 6
  | .r6 => 7
  | .r7 => 8
  | .r8 => 9

/-- The register a port number selects; 10 and up name none (50_interfaces.md R95). -/
def Reg.ofNumber (n : Nat) : Option Reg := Reg.all[n]?

/-- The fault latch on a port (60_exceptions.md R106). -/
structure FaultPort where
  kind : BitVec 2
  addr : BitVec 17
  byte : Byte
  deriving DecidableEq, Repr

/-- The port codes of the latch: kind 0 none, 1 `UnknownOpcode`, 2 `OutOfBounds` (60_exceptions.md R106). -/
def faultPort : Option Fault → FaultPort
  | none => { kind := 0, addr := 0, byte := 0 }
  | some (.unknownOpcode b a) => { kind := 1, addr := BitVec.ofNat 17 a, byte := b }
  | some (.outOfBounds a) => { kind := 2, addr := BitVec.ofNat 17 a, byte := 0 }

end Sys2Proof.Machine
end

