-- ==== Sys2Proof/Safety.lean ====
section
/-! DEFINITION. The words the statements use: how a step ends, what it leaves unchanged, and the invariant. -/

namespace Sys2Proof.Machine

/-- The step of `s` succeeds and leaves `t`: the result `Ok` (40_fetch_decode_step.md R73). -/
def Succeeds (s t : State) : Prop := step s = .next t ∧ t.fault = none

/-- The step of the running state `s` faults with `f` and leaves `t`. -/
def Faults (s : State) (f : Fault) (t : State) : Prop := step s = .next t ∧ t.fault = some f

/-- Memory and its length read the same in both states, at every address. -/
def SameMemory (s t : State) : Prop := t.len = s.len ∧ ∀ a, t.read8 a = s.read8 a

/-- What fault entry with `f` does (60_exceptions.md R109): the latch becomes `f`, no register, no byte and not
`LEN` changes. -/
def FaultEntered (s : State) (f : Fault) (t : State) : Prop :=
  t.fault = some f ∧ (∀ r, t.reg r = s.reg r) ∧ SameMemory s t

/-- Nothing but the named registers differs: no other register, no byte of memory, not `LEN`, not the latch. -/
def ChangesOnly (regs : List Reg) (s t : State) : Prop :=
  (∀ r, r ∉ regs → t.reg r = s.reg r) ∧ SameMemory s t ∧ t.fault = s.fault

/-- The latch holds nothing, or the fault the algorithm of the step meets at this very state (60_exceptions.md R103,
R104, R107): with the latch clear, a step here would raise it again. -/
def LatchLegal (s : State) : Prop := ∀ f, s.fault = some f → s.fetch = .error f

/-- The memory is in canonical form below `LEN`, `LEN` is in its range (10_state.md R21, R22), and the address the
latch records is at most 65536, so that it needs 17 bits (R23). -/
def InRange (s : State) : Prop := s.memWf = true ∧ ∀ f, s.fault = some f → f.addr ≤ 65536

/-- The invariant of the core: everything in its range, and a legal latch. The host's writes keep the first part
alone, since a write of `IP` or memory under a set latch (50_interfaces.md R97, R99) takes the second away. -/
def CoreInvariant (s : State) : Prop := InRange s ∧ LatchLegal s

/-- What address `x` reads as once the host has written `d` at `a`, said without writing: the written bytes, high
byte first (20_memory.md R33, R34), and elsewhere the byte that was there. -/
def State.seenAfter (s : State) (a : Nat) (d : Datum) (x : Nat) : Except Fault Byte :=
  match d with
  | .byte b => if x = a then .ok b else s.read8 x
  | .word v =>
    if x = a then .ok (BitVec.ofNat 8 (v.toNat / 256))
    else if x = a + 1 then .ok (BitVec.ofNat 8 v.toNat)
    else s.read8 x

/-- `n` steps can be taken from `s` and none faults. -/
def SafeFor : Nat → State → Prop
  | 0, _ => True
  | n + 1, s => ∃ t, Succeeds s t ∧ SafeFor n t

end Sys2Proof.Machine
end

