-- ==== Sys2Proof/Certificates/Slice0/Obligations.lean ====
section
/-! DEFINITION. The statements for the provers. Each docstring names the rule of spec/ it formalises. Where a
statement rests on a decision of the spec (92_eei_decisions.md D1 to D17) or of the model (log entry <n>), its
docstring says so. -/

open Sys2Proof Sys2Proof.Machine

/-! ### Reset and the invariant -/

/-- 70_reset_and_hazards.md R123: after reset all ten registers are 0, `LEN` is 0, no byte is addressable, and the
latch holds nothing. -/
def Obligations.ResetState : Prop :=
  (∀ r, State.reset.reg r = 0) ∧ State.reset.len = 0 ∧
    (∀ a, State.reset.read8 a = .error (.outOfBounds a)) ∧ State.reset.fault = none

/-- The invariant holds after reset. -/
def Obligations.ResetSatisfiesInvariant : Prop := CoreInvariant State.reset

/-- Every step keeps the invariant (10_state.md R21 to R23): memory canonical and below `LEN`, `LEN` and the latched
address at most 65536, and a latched fault is the one the algorithm of the step meets at this very state. The
canonical form is the model's (log entry 3), the bound is the spec's decision D2, the latch its decision D7. -/
def Obligations.StepKeepsInvariant : Prop :=
  ∀ s t, CoreInvariant s → step s = .next t → CoreInvariant t

/-- A step taken straight after RESET, before any LOAD, faults with `OutOfBounds(0)` (70_reset_and_hazards.md,
section 1); the latched state is a next state by log entry 1. -/
def Obligations.StepAfterResetFaults : Prop :=
  ∃ t, step State.reset = .next t ∧ FaultEntered State.reset (.outOfBounds 0) t

/-! ### Registers and the adder -/

/-- 10_state.md R12: a register write is total and overwrites unconditionally; every other register, memory and the
latch stay. -/
def Obligations.RegisterWrite : Prop :=
  ∀ (s : State) (r : Reg) (v : Word),
    (s.setReg r v).reg r = v ∧ ChangesOnly [r] s (s.setReg r v)

/-- 42_arithmetic.md R84: addition modulo 65536, its laws, its agreement with signed addition, and the sequencer's
use of it. -/
def Obligations.WrappingAdditionLaws : Prop :=
  (∀ a b : Word, a.toNat + b.toNat ≤ 65535 → (add16 a b).toNat = a.toNat + b.toNat) ∧
  (∀ a b : Word, 65535 < a.toNat + b.toNat → (add16 a b).toNat = a.toNat + b.toNat - 65536) ∧
  (∀ a b : Word, add16 a b = add16 b a) ∧
  (∀ a b c : Word, add16 (add16 a b) c = add16 a (add16 b c)) ∧
  (∀ a : Word, add16 a 0 = a) ∧
  (∀ a : Word, a ≠ 0 → add16 a (BitVec.ofNat 16 (65536 - a.toNat)) = 0) ∧
  (∀ a b : Word, (add16 a b).toInt = (a.toInt + b.toInt).bmod 65536) ∧
  (∀ (s : State) (w : Nat), (s.advance w).reg .ip = add16 (s.reg .ip) (BitVec.ofNat 16 w))

/-! ### Encoding -/

/-- 40_fetch_decode_step.md R65: the three known bytes, the failure of every other byte, and the address the step
adds when it propagates the failure. -/
def Obligations.DecodeTable : Prop :=
  decodeOpcode 0x10 = some .movR1 ∧ decodeOpcode 0x11 = some .movR2 ∧ decodeOpcode 0x12 = some .addR1R2 ∧
  (∀ b : Byte, b ≠ 0x10 → b ≠ 0x11 → b ≠ 0x12 → decodeOpcode b = none) ∧
  (∀ (s : State) (b : Byte), s.fault = none → s.read8 s.addr = .ok b → decodeOpcode b = none →
    ∃ t, Faults s (.unknownOpcode b s.addr) t)

/-- Words written out bit by bit from 30_encoding.md, sections 1 and 2 (the byte order is the spec's decision D1). -/
def Obligations.WrittenOutWordsDecode : Prop :=
  decode [0b00010000, 0b00000000, 0b00000101] = .ok (.movR1 0x0005) [] ∧
  decode [0b00010001, 0b11111111, 0b00000000] = .ok (.movR2 0xFF00) [] ∧
  decode [0b00010010] = .ok .addR1R2 [] ∧
  decode [0b10010010, 0b00000000, 0b00000000] = .unknownOpcode 0b10010010 ∧
  decodeTableWord 24 0b00000101_00000000_00010000 = some (.movR1 0x0005) ∧
  decodeTableWord 8 0b00010010 = some .addR1R2

/-- Decoding an encoded well-formed instruction, with any bytes after it, gives it back whole (30_encoding.md,
sections 1 to 3). -/
def Obligations.DecodeOfEncode : Prop :=
  ∀ (i : Instr) (rest : List Byte), i.wellFormed = true → decode (encode i ++ rest) = .ok i rest

/-- Bytes that decode to an instruction are that instruction's encoding and the bytes after it: each instruction has
one encoding (30_encoding.md, sections 1 to 3). -/
def Obligations.EncodeOfDecode : Prop :=
  ∀ (bs : List Byte) (i : Instr) (rest : List Byte),
    decode bs = .ok i rest → i.wellFormed = true ∧ bs = encode i ++ rest

/-! ### The step and the decoder -/

/-- When the bytes at `IP` decode to a well-formed instruction, the step of a running state is `exec` of it at that
state. The step adds nothing around it: the meaning itself writes `IP` (40_fetch_decode_step.md, section 1). -/
def Obligations.StepRunsDecodedInstruction : Prop :=
  ∀ (s : State) (i : Instr) (rest : List Byte), s.fault = none → i.wellFormed = true →
    decode (s.bytesAt s.addr 3) = .ok i rest → step s = exec i s

/-- When the bytes at `IP` do not decode, the step of a running state enters the fault the decoder's answer stands
for: `UnknownOpcode` with the byte, or `OutOfBounds` with the address of the first missing byte
(40_fetch_decode_step.md, sections 2 and 3; decisions D6 and D7; log entry 1). -/
def Obligations.StepFaultsWhereDecodeFails : Prop :=
  ∀ s : State, s.fault = none →
    (∀ b, decode (s.bytesAt s.addr 3) = .unknownOpcode b →
      ∃ t, step s = .next t ∧ FaultEntered s (.unknownOpcode b s.addr) t) ∧
    (∀ k, decode (s.bytesAt s.addr 3) = .truncated k →
      ∃ t, step s = .next t ∧ FaultEntered s (.outOfBounds (s.addr + k)) t)

/-- The first instruction of a loaded image runs first (70_reset_and_hazards.md, section 2; 20_memory.md, section 6). -/
def Obligations.FirstInstructionOfImageRuns : Prop :=
  ∀ (i : Instr) (rest : List Byte), (encode i ++ rest).length ≤ 65536 →
    step (launch (encode i ++ rest)) = exec i (launch (encode i ++ rest))

/-! ### The instructions -/

/-- `MOV_R1` and `MOV_R2` complete in every state: the immediate goes to the destination, `IP` moves by 3 modulo
65536 (the wrap is the spec's decision D5), and nothing else changes. -/
def Obligations.MovesComplete : Prop :=
  ∀ (imm : Word) (s : State),
    (∃ t, exec (.movR1 imm) s = .next t ∧ t.reg .r1 = imm ∧ t.addr = (s.addr + 3) % 65536 ∧
      ChangesOnly [.r1, .ip] s t) ∧
    (∃ t, exec (.movR2 imm) s = .next t ∧ t.reg .r2 = imm ∧ t.addr = (s.addr + 3) % 65536 ∧
      ChangesOnly [.r2, .ip] s t)

/-- `ADD_R1_R2` completes in every state: `ACC` is the sum modulo 65536 of the old `R1` and `R2`, `IP` moves by 1
modulo 65536 (the wrap is the spec's decision D5), and nothing else changes, not even the latch: 60_exceptions.md
R108, arithmetic never faults. -/
def Obligations.AddCompletes : Prop :=
  ∀ s : State, ∃ t, exec .addR1R2 s = .next t ∧
    (t.reg .acc).toNat = ((s.reg .r1).toNat + (s.reg .r2).toNat) % 65536 ∧
    t.addr = (s.addr + 1) % 65536 ∧ ChangesOnly [.acc, .ip] s t

/-- 41_data_movement.md R80 and R81, as a step: the faults of the operand fetch, which change nothing but the latch,
and the load of the big-endian immediate. The rules take in the spec's decisions D1 (byte order), D4 (no wrap of the
operand addresses), D5 (wrap of `IP`), D6 (the address carried) and D7 (the latch); the latched state is a next state
by log entry 1. -/
def Obligations.MoveStep : Prop :=
  ∀ (s : State) (op : Byte) (d : Reg), (op = 0x10 ∧ d = .r1) ∨ (op = 0x11 ∧ d = .r2) →
    s.fault = none → s.read8 s.addr = .ok op →
    (s.len ≤ s.addr + 1 →
      ∃ t, step s = .next t ∧ FaultEntered s (.outOfBounds (s.addr + 1)) t) ∧
    (s.addr + 1 < s.len → s.len ≤ s.addr + 2 →
      ∃ t, step s = .next t ∧ FaultEntered s (.outOfBounds (s.addr + 2)) t) ∧
    (∀ hi lo, s.read8 (s.addr + 1) = .ok hi → s.read8 (s.addr + 2) = .ok lo →
      ∃ t, step s = .next t ∧ (t.reg d).toNat = hi.toNat * 256 + lo.toNat ∧
        t.addr = (s.addr + 3) % 65536 ∧ ChangesOnly [d, .ip] s t)

/-- 42_arithmetic.md R83, as a step: with its opcode byte at `IP` it always succeeds, whatever bytes follow or none.
The rule takes in the spec's decision D5 (wrap of `IP`). -/
def Obligations.AddStep : Prop :=
  ∀ s : State, s.fault = none → s.read8 s.addr = .ok 0x12 →
    ∃ t, step s = .next t ∧
      (t.reg .acc).toNat = ((s.reg .r1).toNat + (s.reg .r2).toNat) % 65536 ∧
      t.addr = (s.addr + 1) % 65536 ∧ ChangesOnly [.acc, .ip] s t

/-! ### Faults -/

/-- 40_fetch_decode_step.md R67: a step with `IP` at or above `LEN` faults with `OutOfBounds(IP)`. -/
def Obligations.OpcodeFetchOutOfBounds : Prop :=
  ∀ s : State, s.fault = none → s.len ≤ s.addr →
    ∃ t, step s = .next t ∧ FaultEntered s (.outOfBounds s.addr) t

/-- 60_exceptions.md R103: a step raises `UnknownOpcode(byte, addr)` exactly when the byte fetched at `addr = x[IP]`
is none of the three opcodes, and then `addr` is below `LEN`. -/
def Obligations.UnknownOpcodeCause : Prop :=
  ∀ (s : State) (b : Byte) (a : Nat), s.fault = none →
    ((∃ t, Faults s (.unknownOpcode b a) t) ↔
      a = s.addr ∧ a < s.len ∧ s.read8 a = .ok b ∧ b ≠ 0x10 ∧ b ≠ 0x11 ∧ b ≠ 0x12)

/-- 60_exceptions.md R104: within a step `OutOfBounds` is raised in exactly three places, and its address needs 17
bits where `LEN` is in its range. -/
def Obligations.OutOfBoundsCause : Prop :=
  ∀ (s : State) (a : Nat), s.fault = none →
    ((∃ t, Faults s (.outOfBounds a) t) ↔
      (a = s.addr ∧ s.len ≤ s.addr) ∨
      ((s.read8 s.addr = .ok 0x10 ∨ s.read8 s.addr = .ok 0x11) ∧
        ((a = s.addr + 1 ∧ s.len ≤ s.addr + 1) ∨
         (a = s.addr + 2 ∧ s.addr + 1 < s.len ∧ s.len ≤ s.addr + 2)))) ∧
    (s.len ≤ 65536 → (∃ t, Faults s (.outOfBounds a) t) → a ≤ 65536)

/-- 60_exceptions.md R109: a faulting step changes no register, no byte of memory and not `LEN`; the latch becomes
the fault; the step returns it to the host. The next state is the model's rendering (log entry 1). -/
def Obligations.FaultEntry : Prop :=
  ∀ (s : State) (f : Fault) (t : State), Faults s f t →
    FaultEntered s f t ∧
    ∀ o, transact .step { core := s, loadOpen := o } =
      .ok ({ core := t, loadOpen := false }, .stepped (.fault f))

/-- 40_fetch_decode_step.md, section 5, on a step taken while the latch is set (the spec's decision D7): it answers
the latched fault, and the STEP transaction leaves the core as it was. -/
def Obligations.LatchedStepDoesNothing : Prop :=
  ∀ (s : State) (f : Fault), s.fault = some f →
    step s = .fault f ∧
    ∀ o, transact .step { core := s, loadOpen := o } =
      .ok ({ core := s, loadOpen := false }, .stepped (.fault f))

/-- How a step ends: a running state has a next state, a faulted one answers its latched fault, and no step is
refused (40_fetch_decode_step.md, sections 4 and 5; log entry 1). -/
def Obligations.StepStopsOnlyWhenLatched : Prop :=
  ∀ s : State,
    (s.fault = none → ∃ t, step s = .next t) ∧
    (∀ f, step s = .fault f ↔ s.fault = some f) ∧
    (∀ r, step s ≠ .refused r)

/-- 40_fetch_decode_step.md R73: what a step returns is `Ok`, `Fault(UnknownOpcode(byte, addr))` or
`Fault(OutOfBounds(addr))`, it is `Ok` only for a success, and a fault returned is the one the latch holds. A fault
ends the run it is met in and is returned by it. -/
def Obligations.StepResultIsOneOfThree : Prop :=
  (∀ (s t : State) (f : Fault) (k : Nat), Faults s f t → run (k + 1) s = .ok (t, .faulted f 0)) ∧
  ∀ (s : State) (o : Bool), ∃ t res,
    transact .step { core := s, loadOpen := o } = .ok ({ core := t, loadOpen := false }, .stepped res) ∧
    ((res = .ok ∧ Succeeds s t) ∨
     (∃ b a, res = .fault (.unknownOpcode b a) ∧ t.fault = some (.unknownOpcode b a)) ∨
     (∃ a, res = .fault (.outOfBounds a) ∧ t.fault = some (.outOfBounds a)))

/-! ### Whole-machine rules -/

/-- 40_fetch_decode_step.md R70: a successful step writes the destination of the instruction its opcode byte decodes
to (30_encoding.md, section 6) and `IP`, and nothing else; a faulting step changes no register and no byte of
memory. -/
def Obligations.StepIsAtomic : Prop :=
  (∀ s t, Succeeds s t → ∃ b i, s.read8 s.addr = .ok b ∧ decodeOpcode b = some i.opcode ∧ s.fetch = .ok i ∧
    ChangesOnly [destination i.opcode, .ip] s t) ∧
  (destination .movR1 = .r1 ∧ destination .movR2 = .r2 ∧ destination .addR1R2 = .acc) ∧
  (∀ s f t, Faults s f t → (∀ r, t.reg r = s.reg r) ∧ SameMemory s t)

/-- `R3` to `R8` are read by no instruction and written by no instruction: a step commutes with any change of them
(10_state.md, section 1, the register use table). -/
def Obligations.UnusedRegistersDoNotMatter : Prop :=
  ∀ (s : State) (r : Reg) (v : Word), r ∈ [Reg.r3, Reg.r4, Reg.r5, Reg.r6, Reg.r7, Reg.r8] →
    (∀ t, step s = .next t → t.reg r = s.reg r ∧ step (s.setReg r v) = .next (t.setReg r v)) ∧
    (∀ f, step s = .fault f → step (s.setReg r v) = .fault f)

/-- `ACC` is read by no instruction: two states that differ in it alone step to states that agree in every other
register, memory and latch, and in `ACC` too unless the step leaves it as it was (10_state.md, section 1). -/
def Obligations.AccIsNeverRead : Prop :=
  ∀ (s : State) (v : Word) (t : State), step s = .next t →
    ∃ t', step (s.setReg .acc v) = .next t' ∧ (∀ r, r ≠ .acc → t'.reg r = t.reg r) ∧ SameMemory t t' ∧
      t'.fault = t.fault ∧
      (t'.reg .acc = t.reg .acc ∨ (t.reg .acc = s.reg .acc ∧ t'.reg .acc = v))

/-- The sequencer: a successful step moves `IP` by the length its opcode byte gives, modulo 65536 (decision D5), and
where `LEN` is at most 65535 strictly upward to at most `LEN` (40_fetch_decode_step.md, sections 5 and 6). -/
def Obligations.SequencerAdvancesByWidth : Prop :=
  ∀ s t, Succeeds s t →
    ((s.read8 s.addr = .ok 0x12 ∧ t.addr = (s.addr + 1) % 65536) ∨
     ((s.read8 s.addr = .ok 0x10 ∨ s.read8 s.addr = .ok 0x11) ∧ t.addr = (s.addr + 3) % 65536)) ∧
    (s.len ≤ 65535 → s.addr < t.addr ∧ t.addr ≤ s.len)

/-- No step changes memory, and after any host write that succeeds, of one byte or two at any address, the very next
step is the one the written bytes call for, opcode and operands alike: each instruction, the unknown opcode, and the
operand fetch that runs out of the memory (`LEN` does not change) (20_memory.md, sections 2 and 8; 50_interfaces.md,
section 3). It rests on the spec's own decisions D11 (MEM_WRITE), D17 (byte order of the two-byte write), D1 (byte
order of the immediate) and D6 (the address carried), log entry 2, and on log entry 1 (a fault is a next state). -/
def Obligations.NextFetchSeesHostWrite : Prop :=
  (∀ s t, step s = .next t → SameMemory s t) ∧
  (∀ (h h' : Session) (a : Nat) (d : Datum), h.core.memWf = true → h.core.fault = none →
    transact (.memWrite a d) h = .ok (h', .done) →
    (∀ x, h'.core.read8 x = h.core.seenAfter a d x) ∧
    (h.core.seenAfter a d h.core.addr = .ok 0x12 → step h'.core = exec .addR1R2 h'.core) ∧
    (∀ (hi lo : Byte) (imm : Word), h.core.seenAfter a d (h.core.addr + 1) = .ok hi →
      h.core.seenAfter a d (h.core.addr + 2) = .ok lo → imm.toNat = hi.toNat * 256 + lo.toNat →
      (h.core.seenAfter a d h.core.addr = .ok 0x10 → step h'.core = exec (.movR1 imm) h'.core) ∧
      (h.core.seenAfter a d h.core.addr = .ok 0x11 → step h'.core = exec (.movR2 imm) h'.core)) ∧
    (h.core.seenAfter a d h.core.addr = .ok 0x10 ∨ h.core.seenAfter a d h.core.addr = .ok 0x11 →
      (h.core.len ≤ h.core.addr + 1 → ∃ u, Faults h'.core (.outOfBounds (h.core.addr + 1)) u) ∧
      (h.core.len = h.core.addr + 2 → ∃ u, Faults h'.core (.outOfBounds (h.core.addr + 2)) u)) ∧
    (∀ b, h.core.seenAfter a d h.core.addr = .ok b → b ≠ 0x10 → b ≠ 0x11 → b ≠ 0x12 →
      ∃ u, Faults h'.core (.unknownOpcode b h.core.addr) u))

/-! ### Runs -/

/-- Termination: with `LEN` at most 65535, a run from a running state faults after at most `LEN - x[IP]` successful
steps, whatever the budget beyond them, or none (40_fetch_decode_step.md, section 6; the unbounded run is log
entry 5). -/
def Obligations.RunFaultsWithinLen : Prop :=
  ∀ s : State, s.fault = none → s.len ≤ 65535 →
    ∃ f n t, n ≤ s.len - s.addr ∧ t.fault = some f ∧ RunUnbounded s t f n ∧
      ∀ budget, n < budget → run budget s = .ok (t, .faulted f n)

/-- A full memory of `ADD_R1_R2` runs for ever, `IP` going round the ring (40_fetch_decode_step.md, section 6;
95_test_vectors.md T8; decision D5). -/
def Obligations.FullRingOfAddsNeverFaults : Prop :=
  ∀ s : State, s.fault = none → s.len = 65536 → (∀ a, a < 65536 → s.read8 a = .ok 0x12) →
    ∀ n, SafeFor n s ∧ ∃ t, run n s = .ok (t, .budgetExhausted n) ∧ t.addr = (s.addr + n) % 65536

/-- A run is its steps (40_fetch_decode_step.md, section 6; 50_interfaces.md, section 3; the budget is the spec's
decision D14): with budget 0 nothing happens; a successful step is one step more than the run from the next state; a
faulting step, or a latched fault, ends the run. Every run answers, with the latch set where it faulted, and a run
of `m + n` steps is a run of `m`, continued for `n` more if it has not faulted. The RUN transaction is that run. -/
def Obligations.RunIsItsSteps : Prop :=
  (∀ s, run 0 s = .ok (s, .budgetExhausted 0)) ∧
  (∀ (s t : State) (k : Nat), Succeeds s t → ∀ u,
    (∀ f n, run (k + 1) s = .ok (u, .faulted f (n + 1)) ↔ run k t = .ok (u, .faulted f n)) ∧
    (∀ n, run (k + 1) s = .ok (u, .budgetExhausted (n + 1)) ↔ run k t = .ok (u, .budgetExhausted n))) ∧
  (∀ (s t : State) (f : Fault) (k : Nat), Faults s f t → run (k + 1) s = .ok (t, .faulted f 0)) ∧
  (∀ (s : State) (f : Fault) (k : Nat), s.fault = some f → run (k + 1) s = .ok (s, .faulted f 0)) ∧
  (∀ (k : Nat) (s : State), ∃ t,
    (∃ f n, run k s = .ok (t, .faulted f n) ∧ n < k ∧ t.fault = some f) ∨
    (run k s = .ok (t, .budgetExhausted k) ∧ (s.fault = none → t.fault = none))) ∧
  (∀ (m n : Nat) (s t : State),
    (∀ f k, run m s = .ok (t, .faulted f k) → run (m + n) s = .ok (t, .faulted f k)) ∧
    (∀ k, run m s = .ok (t, .budgetExhausted k) → k = m ∧
      (∀ u f j, run n t = .ok (u, .faulted f j) → run (m + n) s = .ok (u, .faulted f (m + j))) ∧
      (∀ u j, run n t = .ok (u, .budgetExhausted j) → run (m + n) s = .ok (u, .budgetExhausted (m + j))))) ∧
  (∀ (k : Nat) (h : Session) (t : State) (res : RunResult), run k h.core = .ok (t, res) →
    ∃ h', transact (.run k) h = .ok (h', .ran res) ∧ h'.core = t)

/-! ### Memory accesses -/

/-- The two-byte read: the first byte is checked first, the fault carries the lowest address out of range (decision
D6), and the byte at the lower address is the high half (decision D1) (20_memory.md, sections 2 and 3). MEM_READ of
one byte or two returns that value to the host and changes nothing (50_interfaces.md, section 3; decision D11). -/
def Obligations.TwoByteRead : Prop :=
  (∀ (s : State) (a : Nat),
    (s.len ≤ a → s.read16 a = .error (.outOfBounds a)) ∧
    (s.len = a + 1 → s.read16 a = .error (.outOfBounds (a + 1))) ∧
    (a + 1 < s.len → ∃ v, s.read16 a = .ok v) ∧
    (∀ hi lo, s.read8 a = .ok hi → s.read8 (a + 1) = .ok lo →
      ∃ v, s.read16 a = .ok v ∧ v.toNat = hi.toNat * 256 + lo.toNat)) ∧
  (∀ (h : Session) (a : Nat),
    (∀ b, h.core.read8 a = .ok b → transact (.memRead a .one) h = .ok (h, .mem (.byte b))) ∧
    (∀ v, h.core.read16 a = .ok v → transact (.memRead a .two) h = .ok (h, .mem (.word v))))

/-- The byte write: at or above `LEN` it fails; below it the byte is there afterwards and nothing else is changed
(20_memory.md, section 2). MEM_WRITE of one byte has that effect (50_interfaces.md, section 3; the spec's own decision
D11). -/
def Obligations.ByteWrite : Prop :=
  ∀ (s : State) (a : Nat) (b : Byte), s.memWf = true →
    (s.len ≤ a → s.write8 a b = .error (.outOfBounds a)) ∧
    (a < s.len → ∃ t, s.write8 a b = .ok t ∧ t.read8 a = .ok b ∧ (∀ x, x ≠ a → t.read8 x = s.read8 x) ∧
      t.len = s.len ∧ t.regs = s.regs ∧ t.fault = s.fault ∧
      ∀ o, transact (.memWrite a (.byte b)) { core := s, loadOpen := o } =
        .ok ({ core := t, loadOpen := o }, .done))

/-- The two-byte write: all or nothing, big-endian, and read back whole (20_memory.md, section 2; decisions D1, D6
and D17). MEM_WRITE of two bytes has that effect (50_interfaces.md, section 3; decision D11). -/
def Obligations.TwoByteWrite : Prop :=
  ∀ (s : State) (a : Nat) (v : Word), s.memWf = true →
    (s.len ≤ a → s.write16 a v = .error (.outOfBounds a)) ∧
    (s.len = a + 1 → s.write16 a v = .error (.outOfBounds (a + 1))) ∧
    (a + 1 < s.len → ∃ t, s.write16 a v = .ok t ∧ t.read16 a = .ok v ∧
      t.read8 a = .ok (BitVec.ofNat 8 (v.toNat / 256)) ∧ t.read8 (a + 1) = .ok (BitVec.ofNat 8 v.toNat) ∧
      (∀ x, x ≠ a → x ≠ a + 1 → t.read8 x = s.read8 x) ∧
      t.len = s.len ∧ t.regs = s.regs ∧ t.fault = s.fault ∧
      ∀ o, transact (.memWrite a (.word v)) { core := s, loadOpen := o } =
        .ok ({ core := t, loadOpen := o }, .done))

/-! ### The host's transactions -/

/-- 50_interfaces.md R90: RESET, in any state, leaves the reset state, and no other transaction takes the core out of
the faulted condition. -/
def Obligations.ResetTransaction : Prop :=
  (∀ h : Session, ∃ h', transact .reset h = .ok (h', .done) ∧ (∀ r, h'.core.reg r = 0) ∧ h'.core.len = 0 ∧
    (∀ a, h'.core.read8 a = .error (.outOfBounds a)) ∧ h'.core.fault = none ∧ h'.core = State.reset) ∧
  (∀ (tx : Transaction) (h h' : Session) (r : Response) (f : Fault), h.core.fault = some f →
    transact tx h = .ok (h', r) → tx = .reset ∨ h'.core.fault = some f)

/-- LOAD: its effect where it is allowed and the image is at most 65536 bytes (decision D2), and its refusal
otherwise (50_interfaces.md, section 3; log entry 4). -/
def Obligations.LoadTransaction : Prop :=
  ∀ (h : Session) (image : List Byte),
    (h.loadOpen = true → image.length ≤ 65536 →
      ∃ h', transact (.load image) h = .ok (h', .done) ∧ h'.core.len = image.length ∧
        (∀ i (hi : i < image.length), h'.core.read8 i = .ok image[i]) ∧
        (∀ r, h'.core.reg r = h.core.reg r) ∧ h'.core.fault = h.core.fault) ∧
    (h.loadOpen = true → 65536 < image.length →
      transact (.load image) h = .error (.imageTooLong image.length)) ∧
    (h.loadOpen = false → transact (.load image) h = .error .loadNotAllowed)

/-- After a LOAD, a STEP or a RUN of at least one step, no LOAD is accepted until RESET (70_reset_and_hazards.md,
section 5; log entry 4). -/
def Obligations.LoadOnlyOnceBeforeSteps : Prop :=
  (∀ (tx : Transaction) (h h' : Session) (r : Response), transact tx h = .ok (h', r) →
    (tx = .step ∨ (∃ image, tx = .load image) ∨ ∃ n, tx = .run (n + 1)) →
    ∀ image, transact (.load image) h' = .error .loadNotAllowed) ∧
  (∀ (tx : Transaction) (h h' : Session) (r : Response), transact tx h = .ok (h', r) →
    h.loadOpen = false → tx ≠ .reset → h'.loadOpen = false)

/-- The launch state is the state after RESET then LOAD, from any session (70_reset_and_hazards.md, section 1). -/
def Obligations.LaunchState : Prop :=
  ∀ (h : Session) (image : List Byte), image.length ≤ 65536 →
    (∃ h1 h2, transact .reset h = .ok (h1, .done) ∧ transact (.load image) h1 = .ok (h2, .done) ∧
      h2.core = launch image) ∧
    (∀ r, (launch image).reg r = 0) ∧ (launch image).len = image.length ∧
    (∀ i (hi : i < image.length), (launch image).read8 i = .ok image[i]) ∧ (launch image).fault = none

/-- REG_WRITE writes one register and changes nothing else, the latch included (50_interfaces.md, section 3; decision
D11). -/
def Obligations.RegWriteTransaction : Prop :=
  ∀ (h : Session) (r : Reg) (v : Word), ∃ h', transact (.regWrite r v) h = .ok (h', .done) ∧
    h'.core.reg r = v ∧ ChangesOnly [r] h.core h'.core ∧ h'.loadOpen = h.loadOpen

/-- A host access any of whose bytes is at or above `LEN` returns `OutOfBounds` to the host and changes nothing, the
latch included (20_memory.md, section 1; 50_interfaces.md, section 3; decisions D6 and D11). -/
def Obligations.HostAccessOutOfBounds : Prop :=
  ∀ (h : Session) (a : Nat),
    (h.core.len ≤ a →
      transact (.memRead a .one) h = .ok (h, .failed (.outOfBounds a)) ∧
      ∀ b, transact (.memWrite a (.byte b)) h = .ok (h, .failed (.outOfBounds a))) ∧
    (h.core.len ≤ a + 1 → ∃ k, h.core.len ≤ k ∧
      transact (.memRead a .two) h = .ok (h, .failed (.outOfBounds k)) ∧
      ∀ v, transact (.memWrite a (.word v)) h = .ok (h, .failed (.outOfBounds k)))

/-- 50_interfaces.md R96: inspection is the read of all ten registers in enumeration order and of every address below
`LEN`, and it changes no state. -/
def Obligations.InspectionReadsAll : Prop :=
  (∀ s : State, s.dump.1 = [s.reg .ip, s.reg .acc, s.reg .r1, s.reg .r2, s.reg .r3, s.reg .r4, s.reg .r5,
    s.reg .r6, s.reg .r7, s.reg .r8] ∧ s.dump.2.length = s.len) ∧
  (∀ (h : Session) (r : Reg), transact (.regRead r) h = .ok (h, .reg (h.core.reg r))) ∧
  (∀ (h : Session) (a : Nat), a < h.core.len →
    ∃ b, h.core.dump.2[a]? = some b ∧ h.core.read8 a = .ok b ∧
      transact (.memRead a .one) h = .ok (h, .mem (.byte b)))

/-- 50_interfaces.md R100: FAULT_READ returns the latch and `LEN`, and changes nothing. -/
def Obligations.FaultReadTransaction : Prop :=
  ∀ h : Session, transact .faultRead h = .ok (h, .latch h.core.fault h.core.len)

/-- Every transaction keeps the memory canonical, below `LEN`, and `LEN` and the latched address at most 65536
(10_state.md, sections 4 and 5; decisions D2 and D7; the canonical form is the model's, log entry 3; the range of the
address, log entry 8). -/
def Obligations.TransactionsKeepMemoryForm : Prop :=
  ∀ (tx : Transaction) (h h' : Session) (r : Response), transact tx h = .ok (h', r) →
    InRange h.core → InRange h'.core

/-- The port codes of the latch (60_exceptions.md, section 1, codes; decision D8) lose nothing of a fault whose
address is in its range, as every transaction keeps it: two such states that show the same port record hold the same
fault. Kind 3 never shows. -/
def Obligations.PortCodesAreFaithful : Prop :=
  (∀ s s' : State, InRange s → InRange s' → faultPort s.fault = faultPort s'.fault → s.fault = s'.fault) ∧
  (∀ f, (faultPort f).kind ≠ 3) ∧
  faultPort none = { kind := 0, addr := 0, byte := 0 } ∧
  (∀ b a, faultPort (some (.unknownOpcode b a)) = { kind := 1, addr := BitVec.ofNat 17 a, byte := b }) ∧
  (∀ a, faultPort (some (.outOfBounds a)) = { kind := 2, addr := BitVec.ofNat 17 a, byte := 0 })

/-- The register numbers of the host port run from 0 in enumeration order and name the ten registers; 10 and up name
none (50_interfaces.md, section 3; decision D9). -/
def Obligations.RegisterNumbers : Prop :=
  (∀ r : Reg, Reg.ofNumber r.number = some r) ∧ (∀ n, 10 ≤ n → Reg.ofNumber n = none) ∧
  [Reg.ip, .acc, .r1, .r2, .r3, .r4, .r5, .r6, .r7, .r8].map Reg.number = [0, 1, 2, 3, 4, 5, 6, 7, 8, 9]
end

