-- ==== Sys2Proof/Laws/Decode.lean ====
section
/-! SUPPORT. The byte order and the opcode table, each said once. -/

namespace Sys2Proof

theorem joinBytes_getLsbD (hi lo : Byte) (k : Nat) :
    (joinBytes hi lo).getLsbD k = if k < 8 then lo.getLsbD k else hi.getLsbD (k - 8) :=
  BitVec.getLsbD_append

theorem hiByte_joinBytes (hi lo : Byte) : hiByte (joinBytes hi lo) = hi := by
  ext i h
  rw [hiByte, BitVec.getElem_extractLsb', joinBytes_getLsbD, if_neg (by omega), Nat.add_sub_cancel_left,
    BitVec.getLsbD_eq_getElem h]

theorem loByte_joinBytes (hi lo : Byte) : loByte (joinBytes hi lo) = lo := by
  ext i h
  rw [loByte, BitVec.getElem_extractLsb', joinBytes_getLsbD, if_pos (by omega), Nat.zero_add,
    BitVec.getLsbD_eq_getElem h]

theorem joinBytes_hiByte_loByte (v : Word) : joinBytes (hiByte v) (loByte v) = v := by
  ext i h
  rw [← BitVec.getLsbD_eq_getElem, joinBytes_getLsbD]
  split
  · next hlt => rw [loByte, BitVec.getLsbD_extractLsb', Nat.zero_add, decide_eq_true hlt, Bool.true_and,
      BitVec.getLsbD_eq_getElem h]
  · next hge => rw [hiByte, BitVec.getLsbD_extractLsb', decide_eq_true (by omega), Bool.true_and,
      Nat.add_sub_cancel' (by omega), BitVec.getLsbD_eq_getElem h]

/-- The value of a joined pair as a number (20_memory.md R35). -/
theorem joinBytes_toNat (hi lo : Byte) : (joinBytes hi lo).toNat = hi.toNat * 256 + lo.toNat := by
  rw [joinBytes, BitVec.toNat_append, ← Nat.shiftLeft_add_eq_or_of_lt lo.isLt, Nat.shiftLeft_eq]

/-- The high byte as a number. -/
theorem hiByte_eq (v : Word) : hiByte v = BitVec.ofNat 8 (v.toNat / 256) :=
  BitVec.eq_of_toNat_eq (by simp [hiByte, BitVec.extractLsb'_toNat, Nat.shiftRight_eq_div_pow])

/-- The low byte as a number. -/
theorem loByte_eq (v : Word) : loByte v = BitVec.ofNat 8 v.toNat := rfl

/-- Which bytes decode to which variant. -/
theorem decodeOpcode_eq_some {b : Byte} {op : Opcode} (h : decodeOpcode b = some op) :
    (b = 0x10 ∧ op = .movR1) ∨ (b = 0x11 ∧ op = .movR2) ∨ (b = 0x12 ∧ op = .addR1R2) := by
  unfold decodeOpcode at h
  split at h
  · next hb => exact .inl ⟨hb, (Option.some.inj h).symm⟩
  · split at h
    · next hb => exact .inr (.inl ⟨hb, (Option.some.inj h).symm⟩)
    · split at h
      · next hb => exact .inr (.inr ⟨hb, (Option.some.inj h).symm⟩)
      · cases h

theorem decodeOpcode_eq_none {b : Byte} : decodeOpcode b = none ↔ b ≠ 0x10 ∧ b ≠ 0x11 ∧ b ≠ 0x12 := by
  unfold decodeOpcode
  split
  · next h => simp [h]
  · split
    · next h => simp [h]
    · split
      · next h => simp [h]
      · next h1 h2 h3 => exact ⟨fun _ => ⟨h1, h2, h3⟩, fun _ => rfl⟩

end Sys2Proof
end

