-- ==== Sys2Proof/Laws/State.lean ====
section
/-! SUPPORT. One lemma per field per update of State, so that no later proof unfolds a record update. -/

namespace Sys2Proof.Machine

variable (s : State) (r r' : Reg) (v : Word) (a : Nat) (b : Byte) (f : Fault)

/-! ### The register file -/

theorem RegFile.get_set (rf : RegFile) : (rf.set r v).get r' = if r' = r then v else rf.get r' := by
  cases r <;> cases r' <;> rfl

/-! ### `setReg` -/

@[simp] theorem State.setReg_mem : (s.setReg r v).mem = s.mem := rfl
@[simp] theorem State.setReg_len : (s.setReg r v).len = s.len := rfl
@[simp] theorem State.setReg_fault : (s.setReg r v).fault = s.fault := rfl
@[simp] theorem State.setReg_read8 : (s.setReg r v).read8 a = s.read8 a := rfl
@[simp] theorem State.setReg_reg : (s.setReg r v).reg r' = if r' = r then v else s.reg r' :=
  RegFile.get_set r r' v s.regs

/-! ### `advance` -/

@[simp] theorem State.advance_mem (w : Nat) : (s.advance w).mem = s.mem := rfl
@[simp] theorem State.advance_len (w : Nat) : (s.advance w).len = s.len := rfl
@[simp] theorem State.advance_fault (w : Nat) : (s.advance w).fault = s.fault := rfl
@[simp] theorem State.advance_read8 (w : Nat) : (s.advance w).read8 a = s.read8 a := rfl
@[simp] theorem State.advance_reg (w : Nat) :
    (s.advance w).reg r' = if r' = .ip then s.reg .ip + BitVec.ofNat 16 w else s.reg r' :=
  State.setReg_reg s .ip r' _

/-! ### `putByte` -/

@[simp] theorem State.putByte_mem : (s.putByte a b).mem = s.mem.put a b := rfl
@[simp] theorem State.putByte_len : (s.putByte a b).len = s.len := rfl
@[simp] theorem State.putByte_fault : (s.putByte a b).fault = s.fault := rfl
@[simp] theorem State.putByte_reg : (s.putByte a b).reg r = s.reg r := rfl
@[simp] theorem State.putByte_addr : (s.putByte a b).addr = s.addr := rfl

/-! ### `latch` -/

@[simp] theorem State.latch_mem : (s.latch f).mem = s.mem := rfl
@[simp] theorem State.latch_len : (s.latch f).len = s.len := rfl
@[simp] theorem State.latch_fault : (s.latch f).fault = some f := rfl
@[simp] theorem State.latch_reg : (s.latch f).reg r = s.reg r := rfl
@[simp] theorem State.latch_addr : (s.latch f).addr = s.addr := rfl
@[simp] theorem State.latch_read8 : (s.latch f).read8 a = s.read8 a := rfl

/-! ### `load` and `placeAtIp` -/

@[simp] theorem State.load_len (image : List Byte) : (s.load image).len = image.length := rfl
@[simp] theorem State.load_mem (image : List Byte) : (s.load image).mem = Memory.ofBytes 0 image := rfl
@[simp] theorem State.load_fault (image : List Byte) : (s.load image).fault = s.fault := rfl
@[simp] theorem State.load_reg (image : List Byte) : (s.load image).reg r = s.reg r := rfl
@[simp] theorem State.placeAtIp_fault (bs : List Byte) : (s.placeAtIp bs).fault = none := rfl
@[simp] theorem State.placeAtIp_reg (bs : List Byte) : (s.placeAtIp bs).reg r = s.reg r := rfl

/-! ### `reset` -/

@[simp] theorem State.reset_mem : State.reset.mem = [] := rfl
@[simp] theorem State.reset_len : State.reset.len = 0 := rfl
@[simp] theorem State.reset_fault : State.reset.fault = none := rfl
@[simp] theorem State.reset_reg : State.reset.reg r = 0 := by cases r <;> rfl

end Sys2Proof.Machine
end

