-- ==== Sys2Proof/Laws/Memory.lean ====
section
/-! SUPPORT. The memory list: reads after writes, and the canonical form, which every operation keeps. -/

namespace Sys2Proof.Machine.Memory

theorem canonicalIn_cons {lo hi a : Nat} {b : Byte} {m : Memory} :
    canonicalIn lo hi ((a, b) :: m) = true ↔
      lo ≤ a ∧ a < hi ∧ b ≠ Config.unlistedByte ∧ canonicalIn (a + 1) hi m = true := by
  simp [canonicalIn, and_assoc]

/-- A lower floor and a higher ceiling keep the form. -/
theorem canonicalIn_mono {m : Memory} {lo lo' hi hi' : Nat} (hlo : lo' ≤ lo) (hhi : hi ≤ hi')
    (h : canonicalIn lo hi m = true) : canonicalIn lo' hi' m = true := by
  induction m generalizing lo lo' with
  | nil => rfl
  | cons c m ih =>
    obtain ⟨a, b⟩ := c
    rw [canonicalIn_cons] at h ⊢
    exact ⟨by omega, by omega, h.2.2.1, ih le_rfl h.2.2.2⟩

/-- Nothing is listed below the floor. -/
theorem get_below {m : Memory} {lo hi x : Nat} (h : canonicalIn lo hi m = true) (hx : x < lo) :
    m.get x = Config.unlistedByte := by
  induction m generalizing lo with
  | nil => rfl
  | cons c m ih =>
    obtain ⟨a, b⟩ := c
    rw [canonicalIn_cons] at h
    rw [get, if_neg (by omega)]
    exact ih h.2.2.2 (by omega)

/-- A write leaves every other address alone. -/
theorem get_put_ne (m : Memory) {a x : Nat} (b : Byte) (hx : x ≠ a) : (m.put a b).get x = m.get x := by
  induction m with
  | nil => by_cases hb : b = Config.unlistedByte <;> simp [put, get, hb, hx.symm]
  | cons c m ih =>
    obtain ⟨a', b'⟩ := c
    unfold put
    split
    · by_cases hb : b = Config.unlistedByte <;> simp [get, hb, hx.symm]
    · split
      · next he =>
        subst he
        by_cases hb : b = Config.unlistedByte <;> simp [get, hb, hx.symm]
      · simp only [get, ih]

/-- A read after a write to the same address gives the byte written. -/
theorem get_put_self {m : Memory} {lo hi a : Nat} (b : Byte) (h : canonicalIn lo hi m = true) :
    (m.put a b).get a = b := by
  induction m generalizing lo with
  | nil => by_cases hb : b = Config.unlistedByte <;> simp [put, get, hb]
  | cons c m ih =>
    obtain ⟨a', b'⟩ := c
    have hm := (canonicalIn_cons.1 h).2.2.2
    unfold put
    split
    · next hlt =>
      by_cases hb : b = Config.unlistedByte
      · rw [if_pos hb, get, if_neg (by omega), get_below hm (by omega), hb]
      · simp [get, hb]
    · split
      · next he =>
        by_cases hb : b = Config.unlistedByte
        · rw [if_pos hb, get_below hm (by omega), hb]
        · simp [get, hb]
      · rw [get, if_neg (by omega)]
        exact ih hm

/-- A write inside the bounds keeps the canonical form. -/
theorem canonicalIn_put {m : Memory} {lo hi a : Nat} (b : Byte) (ha : lo ≤ a) (hh : a < hi)
    (h : canonicalIn lo hi m = true) : canonicalIn lo hi (m.put a b) = true := by
  induction m generalizing lo with
  | nil => by_cases hb : b = Config.unlistedByte <;> simp [put, canonicalIn, hb, ha, hh]
  | cons c m ih =>
    obtain ⟨a', b'⟩ := c
    obtain ⟨h1, h2, h3, h4⟩ := canonicalIn_cons.1 h
    unfold put
    split
    · by_cases hb : b = Config.unlistedByte
      · rwa [if_pos hb]
      · rw [if_neg hb, canonicalIn_cons, canonicalIn_cons]
        exact ⟨ha, hh, hb, by omega, h2, h3, h4⟩
    · split
      · next he =>
        by_cases hb : b = Config.unlistedByte
        · rw [if_pos hb]
          exact canonicalIn_mono (by omega) le_rfl h4
        · rw [if_neg hb, canonicalIn_cons]
          exact ⟨ha, hh, hb, he ▸ h4⟩
      · rw [canonicalIn_cons]
        exact ⟨h1, h2, h3, ih (by omega) h4⟩

/-- The list of an image is in canonical form. -/
theorem canonicalIn_ofBytes (bs : List Byte) (lo : Nat) :
    canonicalIn lo (lo + bs.length) (ofBytes lo bs) = true := by
  induction bs generalizing lo with
  | nil => rfl
  | cons b bs ih =>
    have hrest : canonicalIn (lo + 1) (lo + (b :: bs).length) (ofBytes (lo + 1) bs) = true :=
      canonicalIn_mono le_rfl (by simp only [List.length_cons]; omega) (ih (lo + 1))
    unfold ofBytes
    split
    · exact canonicalIn_mono (by omega) le_rfl hrest
    · next hb => exact canonicalIn_cons.2 ⟨le_rfl, by simp, hb, hrest⟩

/-- The list of an image gives each address the image's byte. -/
theorem get_ofBytes (bs : List Byte) (base i : Nat) (hi : i < bs.length) :
    (ofBytes base bs).get (base + i) = bs[i] := by
  induction bs generalizing base i with
  | nil => simp at hi
  | cons b bs ih =>
    have hlater : ∀ j (hj : j < bs.length), (ofBytes (base + 1) bs).get (base + (j + 1)) = bs[j] := fun j hj => by
      rw [← ih (base + 1) j hj]
      congr 1
      omega
    unfold ofBytes
    cases i with
    | zero =>
      split
      · next hb =>
        rw [get_below (canonicalIn_ofBytes bs (base + 1)) (by omega)]
        exact hb.symm
      · simp [get]
    | succ j =>
      have hj : j < bs.length := by simpa using hi
      split
      · exact hlater j hj
      · rw [get, if_neg (by omega)]
        exact hlater j hj

/-- Placing bytes keeps the canonical form where the ceiling covers them. -/
theorem canonicalIn_place (bs : List Byte) {m : Memory} {a hi : Nat}
    (hhi : min Config.maxLen (a + bs.length) ≤ hi) (h : canonicalIn 0 hi m = true) :
    canonicalIn 0 hi (m.place a bs) = true := by
  induction bs generalizing m a with
  | nil => exact h
  | cons b bs ih =>
    simp only [List.length_cons] at hhi
    refine ih (by omega) ?_
    split
    · exact canonicalIn_put b (by omega) (by omega) h
    · exact h

end Sys2Proof.Machine.Memory

namespace Sys2Proof.Machine

theorem State.memWf_iff (s : State) :
    s.memWf = true ↔ s.mem.canonicalIn 0 s.len = true ∧ s.len ≤ Config.maxLen := by
  simp [State.memWf, Memory.wf]

theorem State.reset_memWf : State.reset.memWf = true := rfl

theorem State.setReg_memWf (s : State) (r : Reg) (v : Word) : (s.setReg r v).memWf = s.memWf := rfl

theorem State.latch_memWf (s : State) (f : Fault) : (s.latch f).memWf = s.memWf := rfl

theorem State.advance_memWf (s : State) (w : Nat) : (s.advance w).memWf = s.memWf := rfl

theorem State.putByte_memWf {s : State} {a : Nat} (b : Byte) (ha : a < s.len) (h : s.memWf = true) :
    (s.putByte a b).memWf = true := by
  rw [State.memWf_iff] at h ⊢
  exact ⟨Memory.canonicalIn_put b (Nat.zero_le a) ha h.1, h.2⟩

theorem State.load_memWf (s : State) {image : List Byte} (h : image.length ≤ Config.maxLen) :
    (s.load image).memWf = true := by
  rw [State.memWf_iff]
  refine ⟨?_, h⟩
  have := Memory.canonicalIn_ofBytes image 0
  simpa using this

theorem State.placeAtIp_memWf {s : State} (bs : List Byte) (h : s.memWf = true) :
    (s.placeAtIp bs).memWf = true := by
  rw [State.memWf_iff] at h ⊢
  refine ⟨Memory.canonicalIn_place bs (Nat.le_max_right ..) ?_, ?_⟩
  · exact Memory.canonicalIn_mono le_rfl (Nat.le_max_left ..) h.1
  · exact max_le h.2 (min_le_left ..)

end Sys2Proof.Machine
end

