-- ==== Sys2Proof/Laws/Ops.lean ====
section
/-! SUPPORT. The access primitives and fault entry, each said once. -/

namespace Sys2Proof.Machine

variable {s t : State} {a : Nat} {f : Fault}

/-! ### `read8` -/

theorem State.read8_of_lt (h : a < s.len) : s.read8 a = .ok (s.mem.get a) := if_pos h

theorem State.read8_of_le (h : s.len ≤ a) : s.read8 a = .error (.outOfBounds a) := if_neg (by omega)

theorem State.read8_ok {b : Byte} (h : s.read8 a = .ok b) : a < s.len ∧ s.mem.get a = b := by
  by_cases ha : a < s.len
  · rw [State.read8_of_lt ha] at h
    exact ⟨ha, Except.ok.inj h⟩
  · rw [State.read8_of_le (by omega)] at h
    cases h

theorem State.read8_error (h : s.read8 a = .error f) : s.len ≤ a ∧ f = .outOfBounds a := by
  by_cases ha : a < s.len
  · rw [State.read8_of_lt ha] at h
    cases h
  · rw [State.read8_of_le (by omega)] at h
    exact ⟨by omega, (Except.error.inj h).symm⟩

/-! ### `read16` -/

theorem State.read16_of_read8 {hi lo : Byte} (h1 : s.read8 a = .ok hi) (h2 : s.read8 (a + 1) = .ok lo) :
    s.read16 a = .ok (joinBytes hi lo) := by
  rw [State.read16, h1, h2]

theorem State.read16_of_le (h : s.len ≤ a) : s.read16 a = .error (.outOfBounds a) := by
  rw [State.read16, State.read8_of_le h]

theorem State.read16_of_eq (h : s.len = a + 1) : s.read16 a = .error (.outOfBounds (a + 1)) := by
  rw [State.read16, State.read8_of_lt (by omega), State.read8_of_le (by omega)]

/-- Everything a two-byte read can answer (20_memory.md R32). -/
theorem State.read16_cases (s : State) (a : Nat) :
    (s.len ≤ a ∧ s.read16 a = .error (.outOfBounds a)) ∨
    (s.len = a + 1 ∧ s.read16 a = .error (.outOfBounds (a + 1))) ∨
    (a + 1 < s.len ∧ s.read16 a = .ok (joinBytes (s.mem.get a) (s.mem.get (a + 1)))) := by
  by_cases h1 : s.len ≤ a
  · exact .inl ⟨h1, State.read16_of_le h1⟩
  · by_cases h2 : s.len = a + 1
    · exact .inr (.inl ⟨h2, State.read16_of_eq h2⟩)
    · exact .inr (.inr ⟨by omega,
        State.read16_of_read8 (State.read8_of_lt (by omega)) (State.read8_of_lt (by omega))⟩)

/-! ### Writes -/

/-- Reads after a byte is put: elsewhere nothing changes. -/
theorem State.putByte_read8_ne (s : State) {x : Nat} (b : Byte) (hx : x ≠ a) :
    (s.putByte a b).read8 x = s.read8 x := by
  rw [State.read8, State.read8, State.putByte_len, State.putByte_mem, Memory.get_put_ne s.mem b hx]

/-- Reads after a byte is put: the byte is there. -/
theorem State.putByte_read8_self (b : Byte) (hm : s.memWf = true) (ha : a < s.len) :
    (s.putByte a b).read8 a = .ok b := by
  rw [State.read8_of_lt (by simpa using ha), State.putByte_mem,
    Memory.get_put_self b ((State.memWf_iff s).1 hm).1]

/-- A byte write that succeeds. -/
theorem State.write8_ok {b : Byte} (h : s.write8 a b = .ok t) : a < s.len ∧ t = s.putByte a b := by
  unfold State.write8 at h
  split at h
  · next ha => exact ⟨ha, (Except.ok.inj h).symm⟩
  · cases h

/-- A two-byte write that succeeds. -/
theorem State.write16_ok {v : Word} (h : s.write16 a v = .ok t) :
    a + 1 < s.len ∧ t = (s.putByte a (hiByte v)).putByte (a + 1) (loByte v) := by
  unfold State.write16 at h
  split at h
  · cases h
  · split at h
    · cases h
    · next h2 => exact ⟨by omega, (Except.ok.inj h).symm⟩

theorem State.write8_memWf {b : Byte} (hm : s.memWf = true) (h : s.write8 a b = .ok t) : t.memWf = true := by
  obtain ⟨ha, rfl⟩ := State.write8_ok h
  exact State.putByte_memWf b ha hm

theorem State.write16_memWf {v : Word} (hm : s.memWf = true) (h : s.write16 a v = .ok t) :
    t.memWf = true := by
  obtain ⟨ha, rfl⟩ := State.write16_ok h
  exact State.putByte_memWf _ (by simpa using ha) (State.putByte_memWf _ (by omega) hm)

/-! ### Runs of bytes -/

theorem State.bytesAt_succ_of_read8 {b : Byte} (n : Nat) (h : s.read8 a = .ok b) :
    s.bytesAt a (n + 1) = b :: s.bytesAt (a + 1) n := by
  rw [State.bytesAt, h]

theorem State.bytesAt_of_le (n : Nat) (h : s.len ≤ a) : s.bytesAt a n = [] := by
  cases n with
  | zero => rfl
  | succ n => rw [State.bytesAt, State.read8_of_le h]

/-! ### Fault entry -/

/-- Fault entry answers a next state in which the latch holds the fault and nothing else differs. -/
theorem takeFault_next (h : takeFault f s = .next t) : t = s.latch f := by
  cases h
  rfl

end Sys2Proof.Machine
end

