-- ==== Sys2Proof/Laws/Fetch.lean ====
section
/-! SUPPORT. Everything the fetch of a step can answer. -/

namespace Sys2Proof.Machine

variable {s : State}

/-- The fetch does not look at the latch. -/
@[simp] theorem State.latch_fetch (s : State) (f : Fault) : (s.latch f).fetch = s.fetch := rfl

theorem State.addr_lt (s : State) : s.addr < 65536 := (s.reg .ip).isLt

/-- The operand fetch of a move. -/
theorem State.fetchMove_cases (s : State) (make : Word → Instr) :
    (s.len ≤ s.addr + 1 ∧ s.fetchMove make = .error (.outOfBounds (s.addr + 1))) ∨
    (s.len = s.addr + 2 ∧ s.fetchMove make = .error (.outOfBounds (s.addr + 2))) ∨
    (s.addr + 2 < s.len ∧
      s.fetchMove make = .ok (make (joinBytes (s.mem.get (s.addr + 1)) (s.mem.get (s.addr + 2))))) := by
  unfold State.fetchMove State.fetchImm
  obtain ⟨h, e⟩ | ⟨h, e⟩ | ⟨h, e⟩ := s.read16_cases (s.addr + 1)
  · exact .inl ⟨h, by rw [e]⟩
  · exact .inr (.inl ⟨h, by rw [e]⟩)
  · exact .inr (.inr ⟨h, by rw [e]⟩)

theorem State.fetch_of_le (h : s.len ≤ s.addr) : s.fetch = .error (.outOfBounds s.addr) := by
  rw [State.fetch, State.read8_of_le h]

theorem State.fetch_unknown {b : Byte} (h : s.read8 s.addr = .ok b) (hb : decodeOpcode b = none) :
    s.fetch = .error (.unknownOpcode b s.addr) := by
  simp only [State.fetch, h, hb]

theorem State.fetch_movR1 (h : s.read8 s.addr = .ok 0x10) : s.fetch = s.fetchMove .movR1 := by
  rw [State.fetch, h]
  rfl

theorem State.fetch_movR2 (h : s.read8 s.addr = .ok 0x11) : s.fetch = s.fetchMove .movR2 := by
  rw [State.fetch, h]
  rfl

theorem State.fetch_addR1R2 (h : s.read8 s.addr = .ok 0x12) : s.fetch = .ok .addR1R2 := by
  rw [State.fetch, h]
  rfl

/-- The four ways past the opcode fetch (40_fetch_decode_step.md R64, R65). -/
theorem State.fetch_cases (s : State) :
    (s.len ≤ s.addr ∧ s.fetch = .error (.outOfBounds s.addr)) ∨
    (∃ b, s.read8 s.addr = .ok b ∧ decodeOpcode b = none ∧ s.fetch = .error (.unknownOpcode b s.addr)) ∨
    (s.read8 s.addr = .ok 0x10 ∧ s.fetch = s.fetchMove .movR1) ∨
    (s.read8 s.addr = .ok 0x11 ∧ s.fetch = s.fetchMove .movR2) ∨
    (s.read8 s.addr = .ok 0x12 ∧ s.fetch = .ok .addR1R2) := by
  cases h : s.read8 s.addr with
  | error f => exact .inl ⟨(State.read8_error h).1, State.fetch_of_le (State.read8_error h).1⟩
  | ok b =>
    refine .inr ?_
    cases hb : decodeOpcode b with
    | none => exact .inl ⟨b, rfl, hb, State.fetch_unknown h hb⟩
    | some op =>
      obtain ⟨rfl, rfl⟩ | ⟨rfl, rfl⟩ | ⟨rfl, rfl⟩ := decodeOpcode_eq_some hb
      · exact .inr (.inl ⟨rfl, State.fetch_movR1 h⟩)
      · exact .inr (.inr (.inl ⟨rfl, State.fetch_movR2 h⟩))
      · exact .inr (.inr (.inr ⟨rfl, State.fetch_addR1R2 h⟩))

/-- A fault of the fetch records an address of 17 bits. -/
theorem State.fetch_error_addr {f : Fault} (hl : s.len ≤ 65536) (h : s.fetch = .error f) : f.addr ≤ 65536 := by
  have ha := s.addr_lt
  have move : ∀ make, s.read8 s.addr = .ok 0x10 ∨ s.read8 s.addr = .ok 0x11 → s.fetch = s.fetchMove make →
      f.addr ≤ 65536 := fun make hop e => by
    have hin : s.addr < s.len := hop.elim (fun h => (State.read8_ok h).1) (fun h => (State.read8_ok h).1)
    rw [e] at h
    obtain ⟨_, e'⟩ | ⟨_, e'⟩ | ⟨_, e'⟩ := s.fetchMove_cases make <;> rw [e'] at h <;> cases h <;>
      simp only [Fault.addr] <;> omega
  obtain ⟨_, e⟩ | ⟨b, _, _, e⟩ | ⟨hop, e⟩ | ⟨hop, e⟩ | ⟨_, e⟩ := s.fetch_cases
  · rw [e] at h
    cases h
    exact ha.le
  · rw [e] at h
    cases h
    exact ha.le
  · exact move _ (.inl hop) e
  · exact move _ (.inr hop) e
  · rw [e] at h
    cases h

end Sys2Proof.Machine
end

