-- ==== Sys2Proof/Laws/PerInstr.lean ====
section
/-! SUPPORT. Statements about every instruction as syntax, one lemma per constructor (LAWS.json). -/

/-- The encoding is as long as the opcode table says (30_encoding.md R53, R56). -/
def Sys2Proof.Laws.EncodeLength.Statement (i : Sys2Proof.Instr) : Prop :=
  (Sys2Proof.encode i).length = i.opcode.width

theorem Sys2Proof.Laws.EncodeLength.movR1 (imm : Sys2Proof.Word) :
    Sys2Proof.Laws.EncodeLength.Statement (.movR1 imm) := rfl

theorem Sys2Proof.Laws.EncodeLength.movR2 (imm : Sys2Proof.Word) :
    Sys2Proof.Laws.EncodeLength.Statement (.movR2 imm) := rfl

theorem Sys2Proof.Laws.EncodeLength.addR1R2 :
    Sys2Proof.Laws.EncodeLength.Statement .addR1R2 := rfl
end

