-- ==== Sys2Proof/Laws/Step.lean ====
section
/-! SUPPORT. What a meaning does, and what a step can do, each said once. -/

namespace Sys2Proof.Machine

variable {s t : State} {f : Fault} {i : Instr}

/-! ### The meanings -/

theorem execMovR1_next (imm : Word) (s : State) :
    exec (.movR1 imm) s = .next ((s.setReg .r1 imm).advance 3) := rfl

theorem execMovR2_next (imm : Word) (s : State) :
    exec (.movR2 imm) s = .next ((s.setReg .r2 imm).advance 3) := rfl

theorem execAddR1R2_next (s : State) :
    exec .addR1R2 s = .next ((s.setReg .acc (s.reg .r1 + s.reg .r2)).advance 1) := rfl

/-- Every meaning writes its destination and `IP` and nothing else. -/
theorem exec_next (i : Instr) (s : State) :
    ∃ v, exec i s = .next ((s.setReg (destination i.opcode) v).advance i.opcode.width) := by
  cases i with
  | movR1 imm => exact ⟨imm, rfl⟩
  | movR2 imm => exact ⟨imm, rfl⟩
  | addR1R2 => exact ⟨s.reg .r1 + s.reg .r2, rfl⟩

/-! ### The step -/

theorem step_latched (h : s.fault = some f) : step s = .fault f := by
  rw [step, stepWith, h]
  rfl

theorem step_fetch_error (h : s.fault = none) (hf : s.fetch = .error f) : step s = .next (s.latch f) := by
  rw [step, stepWith, h]
  simp only [hf]
  rfl

theorem step_fetch_ok (h : s.fault = none) (hf : s.fetch = .ok i) : step s = exec i s := by
  rw [step, stepWith, h]
  simp only [hf]

/-- A step that answers a next state: either the fetch faulted and the latch alone is new, or one instruction ran. -/
theorem step_next_cases (h : step s = .next t) :
    s.fault = none ∧
      ((∃ f, s.fetch = .error f ∧ t = s.latch f) ∨
       (∃ i v, s.fetch = .ok i ∧ exec i s = .next t ∧
          t = (s.setReg (destination i.opcode) v).advance i.opcode.width)) := by
  cases hs : s.fault with
  | some f =>
    rw [step_latched hs] at h
    cases h
  | none =>
    refine ⟨rfl, ?_⟩
    cases hf : s.fetch with
    | error f =>
      rw [step_fetch_error hs hf] at h
      cases h
      exact .inl ⟨f, rfl, rfl⟩
    | ok i =>
      rw [step_fetch_ok hs hf] at h
      obtain ⟨v, hv⟩ := exec_next i s
      refine .inr ⟨i, v, rfl, h, ?_⟩
      rw [hv] at h
      cases h
      rfl

/-- The step of a running state always answers a next state. -/
theorem step_running (h : s.fault = none) : ∃ t, step s = .next t := by
  cases hf : s.fetch with
  | error f => exact ⟨_, step_fetch_error h hf⟩
  | ok i =>
    obtain ⟨v, hv⟩ := exec_next i s
    exact ⟨_, (step_fetch_ok h hf).trans hv⟩

/-- A success runs one instruction. -/
theorem succeeds_cases (h : Succeeds s t) :
    s.fault = none ∧ ∃ i v, s.fetch = .ok i ∧ exec i s = .next t ∧
      t = (s.setReg (destination i.opcode) v).advance i.opcode.width := by
  obtain ⟨hs, ⟨f, _, rfl⟩ | hi⟩ := step_next_cases h.1
  · cases h.2
  · exact ⟨hs, hi⟩

/-- A fault is one of the fetch, and the latch alone is new. -/
theorem faults_cases (h : Faults s f t) : s.fault = none ∧ s.fetch = .error f ∧ t = s.latch f := by
  obtain ⟨hs, ⟨g, hg, rfl⟩ | ⟨i, v, _, _, rfl⟩⟩ := step_next_cases h.1
  · cases h.2
    exact ⟨hs, hg, rfl⟩
  · have hn := h.2
    rw [State.advance_fault, State.setReg_fault, hs] at hn
    cases hn

/-- A running state's step faults exactly where its fetch does. -/
theorem faults_iff_fetch (hs : s.fault = none) : (∃ t, Faults s f t) ↔ s.fetch = .error f :=
  ⟨fun ⟨_, h⟩ => (faults_cases h).2.1, fun h => ⟨_, step_fetch_error hs h, rfl⟩⟩

/-- No step changes memory. -/
theorem step_sameMemory (h : step s = .next t) : SameMemory s t := by
  obtain ⟨_, ⟨_, _, rfl⟩ | ⟨_, _, _, _, rfl⟩⟩ := step_next_cases h <;> exact ⟨rfl, fun _ => rfl⟩

/-- A step keeps everything in its range. -/
theorem step_inRange (hr : InRange s) (h : step s = .next t) : InRange t := by
  obtain ⟨hs, ⟨g, hg, rfl⟩ | ⟨i, v, _, _, rfl⟩⟩ := step_next_cases h
  · refine ⟨hr.1, fun f hf => ?_⟩
    cases hf
    exact State.fetch_error_addr ((State.memWf_iff s).1 hr.1).2 hg
  · exact hr

end Sys2Proof.Machine
end

