-- ==== Sys2Proof/Laws/Transactions.lean ====
section
/-! SUPPORT. What STEP, RUN and LOAD do, each said once. -/

namespace Sys2Proof.Machine

variable {s t : State} {f : Fault}

/-! ### STEP -/

theorem stepTransaction_latched (h : s.fault = some f) : stepTransaction s = .ok (s, .fault f) := by
  rw [stepTransaction, step_latched h]

theorem stepTransaction_ok (h : Succeeds s t) : stepTransaction s = .ok (t, .ok) := by
  rw [stepTransaction, h.1]
  simp only [h.2]

theorem stepTransaction_fault (h : Faults s f t) : stepTransaction s = .ok (t, .fault f) := by
  rw [stepTransaction, h.1]
  simp only [h.2]

/-- STEP always answers: a success, a new fault, or the latched fault with the state as it was. -/
theorem stepTransaction_cases (s : State) :
    (∃ t, Succeeds s t ∧ stepTransaction s = .ok (t, .ok)) ∨
    (∃ t f, Faults s f t ∧ stepTransaction s = .ok (t, .fault f)) ∨
    (∃ f, s.fault = some f ∧ stepTransaction s = .ok (s, .fault f)) := by
  cases hs : s.fault with
  | some f => exact .inr (.inr ⟨f, rfl, stepTransaction_latched hs⟩)
  | none =>
    obtain ⟨t, ht⟩ := step_running hs
    cases hf : t.fault with
    | none => exact .inl ⟨t, ⟨ht, hf⟩, stepTransaction_ok ⟨ht, hf⟩⟩
    | some f => exact .inr (.inl ⟨t, f, ⟨ht, hf⟩, stepTransaction_fault ⟨ht, hf⟩⟩)

/-! ### RUN -/

/-- A run's result with `n` more successful steps before it. -/
def RunResult.after (n : Nat) : RunResult → RunResult
  | .faulted f k => .faulted f (n + k)
  | .budgetExhausted k => .budgetExhausted (n + k)

/-- The count of a run starts where it is told to. -/
theorem runFrom_add (n m k : Nat) (s : State) :
    runFrom (n + m) k s = (runFrom m k s).map fun p => (p.1, p.2.after n) := by
  induction k generalizing m s with
  | zero => rfl
  | succ k ih =>
    unfold runFrom
    obtain ⟨t, _, e⟩ | ⟨t, f, _, e⟩ | ⟨f, _, e⟩ := stepTransaction_cases s
    · simp only [e]
      exact ih (m + 1) t
    · simp only [e]
      rfl
    · simp only [e]
      rfl

theorem run_zero (s : State) : run 0 s = .ok (s, .budgetExhausted 0) := rfl

/-- A run whose first step succeeds goes on from the next state. -/
theorem run_succ_of_succeeds (k : Nat) (h : Succeeds s t) :
    run (k + 1) s = (run k t).map fun p => (p.1, p.2.after 1) := by
  rw [run, runFrom]
  simp only [stepTransaction_ok h]
  exact runFrom_add 1 0 k t

theorem run_succ_of_faults (k : Nat) (h : Faults s f t) : run (k + 1) s = .ok (t, .faulted f 0) := by
  rw [run, runFrom]
  simp only [stepTransaction_fault h]

theorem run_succ_of_latched (k : Nat) (h : s.fault = some f) : run (k + 1) s = .ok (s, .faulted f 0) := by
  rw [run, runFrom]
  simp only [stepTransaction_latched h]

/-! ### LOAD -/

/-- After LOAD every address below `LEN` reads as the image's byte. -/
theorem State.load_read8 (s : State) (image : List Byte) (i : Nat) (hi : i < image.length) :
    (s.load image).read8 i = .ok image[i] := by
  have h := Memory.get_ofBytes image 0 i hi
  rw [Nat.zero_add] at h
  rw [State.read8_of_lt hi, State.load_mem, h]

/-! ### MEM_WRITE -/

/-- Everything a host write that succeeds does. -/
theorem State.hostWrite_ok {a : Nat} {d : Datum} (hm : s.memWf = true) (h : s.hostWrite a d = .ok t) :
    t.memWf = true ∧ t.len = s.len ∧ t.regs = s.regs ∧ t.fault = s.fault ∧
      ∀ x, t.read8 x = s.seenAfter a d x := by
  cases d with
  | byte b =>
    obtain ⟨ha, rfl⟩ := State.write8_ok h
    refine ⟨State.putByte_memWf b ha hm, rfl, rfl, rfl, fun x => ?_⟩
    simp only [State.seenAfter]
    split
    · next hx => rw [hx, State.putByte_read8_self b hm ha]
    · next hx => rw [State.putByte_read8_ne s b hx]
  | word v =>
    obtain ⟨ha, rfl⟩ := State.write16_ok h
    have hm' := State.putByte_memWf (hiByte v) (show a < s.len by omega) hm
    refine ⟨State.putByte_memWf _ ha hm', rfl, rfl, rfl, fun x => ?_⟩
    simp only [State.seenAfter]
    split
    · next hx =>
      rw [hx, State.putByte_read8_ne _ _ (by omega), State.putByte_read8_self _ hm (by omega), hiByte_eq]
    · next hx =>
      split
      · next hx' => rw [hx', State.putByte_read8_self _ hm' ha, loByte_eq]
      · next hx' => rw [State.putByte_read8_ne _ _ hx', State.putByte_read8_ne _ _ hx]

/-- MEM_WRITE answers `done` exactly for a host write that succeeds. -/
theorem transact_memWrite_done {h h' : Session} {a : Nat} {d : Datum}
    (e : transact (.memWrite a d) h = .ok (h', .done)) :
    h.core.hostWrite a d = .ok h'.core ∧ h'.loadOpen = h.loadOpen := by
  simp only [transact] at e
  split at e
  · next t ht =>
    cases e
    exact ⟨ht, rfl⟩
  · cases e

end Sys2Proof.Machine
end

