-- ==== Sys2Proof/Tests/Slice0.lean ====
section
/-! SUPPORT. Tests whose results come from the spec (95_test_vectors.md, by the vector's id, or the rule named), and
one witness for the hypotheses of each statement. -/

namespace Sys2Proof.Tests

open Sys2Proof.Machine

/-- A state with the given `IP`, `R1`, `R2`, `ACC`, memory and length; the other registers 0, running. -/
def mk (ip r1 r2 acc : Word) (mem : Memory) (len : Nat) : State :=
  { regs := { RegFile.reset with ip := ip, r1 := r1, r2 := r2, acc := acc }, mem := mem, len := len, fault := none }

/-- The next state a step answers, if it answers one. -/
def nextOf : Host.Outcome State Fault Refusal → Option State
  | .next t => some t
  | .fault _ => none
  | .refused _ => none

/-- The fault a step answers, if it answers one. -/
def faultOf : Host.Outcome State Fault Refusal → Option Fault
  | .next _ => none
  | .fault f => some f
  | .refused _ => none

/-- What a step leaves of a state: the latch, `IP`, `ACC`, `R1`, `R2`. -/
def view (s : State) : Option Fault × List Word := (s.fault, [s.reg .ip, s.reg .acc, s.reg .r1, s.reg .r2])

/-- The view of the state one step answers. -/
def stepView (s : State) : Option (Option Fault × List Word) := (nextOf (step s)).map view

/-! ### Well-formedness: an ill-formed term for each check -/

/-- An image of 65537 bytes (50_interfaces.md R91). -/
theorem test_image_too_long_refused : imageWellFormed (List.replicate 65537 0x12) = false := by
  rw [imageWellFormed, List.length_replicate]
  rfl

/-- `LEN` above 65536 (10_state.md R21). -/
theorem test_memWf_refuses_len : (mk 0 0 0 0 [] 65537).memWf = false := by decide

/-- A listed address at `LEN` (10_state.md R22). -/
theorem test_memWf_refuses_address_at_len : (mk 0 0 0 0 [(3, 0x12)] 3).memWf = false := by decide

theorem test_memWf_refuses_falling_addresses : (mk 0 0 0 0 [(1, 0x12), (0, 0x12)] 3).memWf = false := by decide

theorem test_memWf_refuses_repeated_address : (mk 0 0 0 0 [(1, 0x12), (1, 0x10)] 3).memWf = false := by decide

theorem test_memWf_refuses_zero_byte : (mk 0 0 0 0 [(1, 0x00)] 3).memWf = false := by decide

/-- No instruction is ill-formed: "all 65536 values are legal" (30_encoding.md R54). -/
theorem test_instructions_wellFormed :
    Instr.wellFormed (.movR1 0xFFFF) && Instr.wellFormed (.movR2 0) && Instr.wellFormed .addR1R2 := by decide

/-! ### Decoding: words written out from 30_encoding.md R52, R53 -/

/-- S8: bytes 0x10, 0x00, 0x05 load 5. -/
theorem test_decode_movR1 : decode [0b00010000, 0b00000000, 0b00000101] = .ok (.movR1 5) [] := by decide

/-- V5: the operand byte 0xFF is data. -/
theorem test_decode_movR2 : decode [0b00010001, 0b11111111, 0b00000000, 0x12] = .ok (.movR2 0xFF00) [0x12] := by
  decide

theorem test_decode_addR1R2 : decode [0b00010010] = .ok .addR1R2 [] := by decide

/-- K4 to K8: the neighbours of the three opcodes, and bytes one bit away from them. -/
theorem test_decode_unknown :
    [0x00, 0x0F, 0x13, 0x20, 0x90, 0x92, 0xFF].map decodeOpcode = List.replicate 7 none := by decide

/-- A move cut short (U7); an unknown opcode in the last byte is unknown, not truncated (R66). -/
theorem test_decode_truncated :
    [decode [], decode [0x10], decode [0x11, 0x07], decode [0xFF]] =
      [.truncated 0, .truncated 1, .truncated 2, .unknownOpcode 0xFF] := by decide

theorem test_encode :
    [encode (.movR1 0xABCD), encode (.movR2 0x0003), encode .addR1R2] =
      [[0x10, 0xAB, 0xCD], [0x11, 0x00, 0x03], [0x12]] := by decide

theorem test_decodeTableWord :
    [decodeTableWord 24 0xCDAB10, decodeTableWord 8 0x11, decodeTableWord 8 0x12, decodeTableWord 8 0x13] =
      [some (.movR1 0xABCD), some (.movR2 0), some .addR1R2, none] := by decide

/-! ### One step of each instruction -/

/-- V1. -/
theorem test_movR1_big_endian : stepView (launch [0x10, 0xAB, 0xCD]) = some (none, [3, 0, 0xABCD, 0]) := by decide

/-- T2: `IP` wraps. -/
theorem test_movR1_wraps :
    stepView (mk 0xFFFD 7 8 9 [(0xFFFD, 0x10), (0xFFFE, 0xBE), (0xFFFF, 0xEF)] 65536) =
      some (none, [0, 9, 0xBEEF, 8]) := by decide

/-- V5. -/
theorem test_movR2_operand_is_data :
    stepView (launch [0x11, 0xFF, 0x00]) = some (none, [3, 0, 0, 0xFF00]) := by decide

/-- The worked example of 41_data_movement.md R81. -/
theorem test_movR2_at_3 :
    stepView (mk 3 5 0 0 (Memory.ofBytes 0 [0x10, 0x00, 0x05, 0x11, 0x00, 0x03, 0x12]) 7) =
      some (none, [6, 0, 5, 3]) := by decide

/-- A11: the carry is lost; A12: the old `ACC` is not an input. -/
theorem test_add_wraps : stepView (mk 0 0xFFFE 3 0x9999 [(0, 0x12)] 1) = some (none, [1, 1, 0xFFFE, 3]) := by decide

/-- T1: `IP` wraps. -/
theorem test_add_at_top : stepView (mk 0xFFFF 1 2 0 [(0xFFFF, 0x12)] 65536) = some (none, [0, 3, 1, 2]) := by decide

/-! ### Faults -/

/-- V6 and V9: the address is the first byte missing; `R2` takes no part of an immediate. -/
theorem test_truncated_moves_fault :
    [stepView (launch [0x10]), stepView (launch [0x11, 0x07])] =
      [some (some (.outOfBounds 1), [0, 0, 0, 0]), some (some (.outOfBounds 2), [0, 0, 0, 0])] := by decide

/-- F1 and F3. -/
theorem test_empty_and_unknown_fault :
    [stepView State.reset, stepView (launch [0xFF])] =
      [some (some (.outOfBounds 0), [0, 0, 0, 0]), some (some (.unknownOpcode 0xFF 0), [0, 0, 0, 0])] := by decide

/-- T3 and T4: the operand addresses do not wrap. -/
theorem test_top_of_memory_faults :
    [stepView (mk 0xFFFE 0 0 0 [(0xFFFE, 0x10)] 65536), stepView (mk 0xFFFF 0 0 0 [(0xFFFF, 0x11)] 65536)] =
      [some (some (.outOfBounds 0x10000), [0xFFFE, 0, 0, 0]),
       some (some (.outOfBounds 0x10000), [0xFFFF, 0, 0, 0])] := by decide

/-- F5, third step: the latch is sticky. -/
theorem test_latched_step :
    faultOf (step ((mk 1 0 0 0 [(0, 0x12), (1, 0x99)] 2).latch (.unknownOpcode 0x99 1))) =
      some (.unknownOpcode 0x99 1) := by decide

/-! ### Memory and the host -/

/-- M4, M5, M6, M7. -/
theorem test_read16 :
    [0, 1, 2, 3].map (launch [0xDE, 0xAD, 0xBE]).read16 =
      [.ok 0xDEAD, .ok 0xADBE, .error (.outOfBounds 3), .error (.outOfBounds 3)] := by decide

/-- M8: no truncation of the address. -/
theorem test_read8_far : (launch [0xDE, 0xAD, 0xBE]).read8 70000 = .error (.outOfBounds 70000) := by decide

/-- M10 (a zero byte leaves the list) and M11. -/
theorem test_writes :
    [(launch [0xDE, 0xAD, 0xBE]).write8 1 0x00, (launch [0xDE, 0xAD, 0xBE]).write16 1 0x1234] =
      [.ok (launch [0xDE, 0x00, 0xBE]), .ok (launch [0xDE, 0x12, 0x34])] := by decide

/-- M12 and M13: all or nothing, never growing. -/
theorem test_writes_fail :
    [(launch [0xDE, 0xAD, 0xBE]).write16 2 0xFFFF, (launch [0xDE, 0xAD, 0xBE]).write8 3 0x55] =
      [.error (.outOfBounds 3), .error (.outOfBounds 3)] := by decide

/-- H5: a failed host read does not set the latch. -/
theorem test_host_read_fails :
    transact (.memRead 1 .one) ⟨launch [0x12], false⟩ = .ok (⟨launch [0x12], false⟩, .failed (.outOfBounds 1)) := by
  decide

/-- H3, the RESET: it clears the latch and empties the memory. -/
theorem test_reset_clears :
    transact .reset ⟨(launch [0xFF]).latch (.unknownOpcode 0xFF 0), false⟩ = .ok (⟨State.reset, true⟩, .done) := by
  decide

/-- U11: a second LOAD is refused. -/
theorem test_second_load_refused : transact (.load [0x12]) ⟨launch [0x12], false⟩ = .error .loadNotAllowed := by decide

/-- R106. -/
theorem test_port_codes :
    [faultPort none, faultPort (some (.unknownOpcode 0xEE 3)), faultPort (some (.outOfBounds 65536))] =
      [⟨0, 0, 0⟩, ⟨1, 3, 0xEE⟩, ⟨2, 65536, 0⟩] := by decide

/-- The word of a row, placed where the next step fetches it, runs right after reset. -/
theorem test_withFetchWord :
    [stepView (State.reset.withFetchWord 24 0xCDAB10), stepView (State.reset.withFetchWord 8 0x11),
      stepView (State.reset.withFetchWord 8 0x12)] =
      [some (none, [3, 0, 0xABCD, 0]), some (none, [3, 0, 0, 0]), some (none, [1, 0, 0, 0])] := by decide

/-! ### Witnesses: states and operands that meet the hypotheses of each statement -/

/-- One byte 0x12 at the top of a full memory. -/
def topAdd : State := mk 0xFFFF 1 2 0 [(0xFFFF, 0x12)] 65536

theorem witness_StepKeepsInvariant_success :
    CoreInvariant topAdd ∧ step topAdd = .next (mk 0 1 2 3 [(0xFFFF, 0x12)] 65536) :=
  ⟨⟨⟨by decide, fun _ h => by cases h⟩, fun _ h => by cases h⟩, rfl⟩

theorem witness_StepKeepsInvariant_fault :
    CoreInvariant (mk 0xFFFF 0 0 0 [(0xFFFF, 0x11)] 65536) ∧
      step (mk 0xFFFF 0 0 0 [(0xFFFF, 0x11)] 65536) =
        .next ((mk 0xFFFF 0 0 0 [(0xFFFF, 0x11)] 65536).latch (.outOfBounds 65536)) :=
  ⟨⟨⟨by decide, fun _ h => by cases h⟩, fun _ h => by cases h⟩, rfl⟩

/-- The latch `OutOfBounds(1)` is not legal where the byte at `IP` is 0x12 or 0xFF: no step raises it there (R107). -/
theorem test_latch_not_legal :
    ¬ LatchLegal ((launch [0x12]).latch (.outOfBounds 1)) ∧ ¬ LatchLegal ((launch [0xFF]).latch (.outOfBounds 1)) :=
  ⟨(fun h => nomatch h _ rfl), (fun h => nomatch h _ rfl)⟩

/-- The latched fault that a step does raise is legal, at the top of the memory. -/
theorem test_latch_legal : LatchLegal ((mk 0xFFFE 0 0 0 [(0xFFFE, 0x10)] 65536).latch (.outOfBounds 65536)) :=
  fun _ h => by cases h; rfl

theorem witness_WrappingAdditionLaws :
    (0xFFFE : Word).toNat + (0x0001 : Word).toNat ≤ 65535 ∧ 65535 < (0xFFFF : Word).toNat + (0x0001 : Word).toNat ∧
      (0x0001 : Word) ≠ 0 := by decide

theorem witness_DecodeTable :
    (0x13 : Byte) ≠ 0x10 ∧ (0x13 : Byte) ≠ 0x11 ∧ (0x13 : Byte) ≠ 0x12 ∧ (launch [0x13]).fault = none ∧
      (launch [0x13]).read8 (launch [0x13]).addr = .ok 0x13 ∧ decodeOpcode 0x13 = none := by decide

theorem witness_DecodeOfEncode : Instr.wellFormed (.movR1 0xFFFF) = true := by decide

theorem witness_EncodeOfDecode : decode [0x11, 0xAB, 0xCD, 0x12] = .ok (.movR2 0xABCD) [0x12] := by decide

theorem witness_StepRunsDecodedInstruction :
    topAdd.fault = none ∧ Instr.wellFormed .addR1R2 = true ∧ decode (topAdd.bytesAt topAdd.addr 3) = .ok .addR1R2 [] ∧
      (launch [0x10, 0xAB, 0xCD]).fault = none ∧
      decode ((launch [0x10, 0xAB, 0xCD]).bytesAt (launch [0x10, 0xAB, 0xCD]).addr 3) = .ok (.movR1 0xABCD) [] := by
  decide

theorem witness_StepFaultsWhereDecodeFails :
    decode ((launch [0xFF]).bytesAt (launch [0xFF]).addr 3) = .unknownOpcode 0xFF ∧
      decode ((launch []).bytesAt (launch []).addr 3) = .truncated 0 ∧
      decode ((launch [0x10]).bytesAt (launch [0x10]).addr 3) = .truncated 1 ∧
      decode ((launch [0x11, 7]).bytesAt (launch [0x11, 7]).addr 3) = .truncated 2 := by decide

theorem witness_FirstInstructionOfImageRuns : (encode (.movR1 5) ++ List.replicate 65533 0).length ≤ 65536 := by
  rw [List.length_append, List.length_replicate]
  decide

theorem witness_MoveStep_second_byte_missing :
    (mk 0xFFFF 0 0 0 [(0xFFFF, 0x10)] 65536).fault = none ∧
      (mk 0xFFFF 0 0 0 [(0xFFFF, 0x10)] 65536).read8 0xFFFF = .ok 0x10 ∧
      (mk 0xFFFF 0 0 0 [(0xFFFF, 0x10)] 65536).addr = 0xFFFF := by decide

theorem witness_MoveStep_third_byte_missing :
    (mk 0xFFFE 0 0 0 [(0xFFFE, 0x11)] 65536).read8 0xFFFE = .ok 0x11 ∧
      (mk 0xFFFE 0 0 0 [(0xFFFE, 0x11)] 65536).addr + 1 < 65536 ∧
      65536 ≤ (mk 0xFFFE 0 0 0 [(0xFFFE, 0x11)] 65536).addr + 2 := by decide

theorem witness_MoveStep_whole :
    (mk 0xFFFD 0 0 0 [(0xFFFD, 0x10), (0xFFFE, 0xBE), (0xFFFF, 0xEF)] 65536).read8 0xFFFD = .ok 0x10 ∧
      (mk 0xFFFD 0 0 0 [(0xFFFD, 0x10), (0xFFFE, 0xBE), (0xFFFF, 0xEF)] 65536).read8 0xFFFE = .ok 0xBE ∧
      (mk 0xFFFD 0 0 0 [(0xFFFD, 0x10), (0xFFFE, 0xBE), (0xFFFF, 0xEF)] 65536).read8 0xFFFF = .ok 0xEF := by decide

theorem witness_AddStep : topAdd.fault = none ∧ topAdd.read8 topAdd.addr = .ok 0x12 := by decide

theorem witness_OpcodeFetchOutOfBounds :
    (mk 7 0 0 0 [(6, 0x12)] 7).fault = none ∧ (mk 7 0 0 0 [(6, 0x12)] 7).len ≤ (mk 7 0 0 0 [(6, 0x12)] 7).addr := by
  decide

theorem witness_UnknownOpcodeCause :
    (launch [0x0F]).fault = none ∧ Faults (launch [0x0F]) (.unknownOpcode 0x0F 0)
      ((launch [0x0F]).latch (.unknownOpcode 0x0F 0)) := ⟨rfl, rfl, rfl⟩

theorem witness_OutOfBoundsCause_opcode :
    (launch []).fault = none ∧ Faults (launch []) (.outOfBounds 0) ((launch []).latch (.outOfBounds 0)) :=
  ⟨rfl, rfl, rfl⟩

theorem witness_OutOfBoundsCause_first_operand :
    Faults (mk 0xFFFF 0 0 0 [(0xFFFF, 0x10)] 65536) (.outOfBounds 65536)
      ((mk 0xFFFF 0 0 0 [(0xFFFF, 0x10)] 65536).latch (.outOfBounds 65536)) := ⟨rfl, rfl⟩

theorem witness_OutOfBoundsCause_second_operand :
    Faults (launch [0x11, 0x07]) (.outOfBounds 2) ((launch [0x11, 0x07]).latch (.outOfBounds 2)) := ⟨rfl, rfl⟩

/-- For FaultEntry, StepIsAtomic and StepResultIsOneOfThree. -/
theorem witness_Faults :
    Faults (launch [0x10]) (.outOfBounds 1) ((launch [0x10]).latch (.outOfBounds 1)) := ⟨rfl, rfl⟩

/-- For StepIsAtomic and SequencerAdvancesByWidth. -/
theorem witness_Succeeds : Succeeds topAdd (mk 0 1 2 3 [(0xFFFF, 0x12)] 65536) := ⟨rfl, rfl⟩

/-- For SequencerAdvancesByWidth where `LEN` is at most 65535. -/
theorem witness_SequencerAdvancesByWidth :
    Succeeds (mk 0xFFFE 1 2 0 [(0xFFFE, 0x12)] 65535) (mk 0xFFFF 1 2 3 [(0xFFFE, 0x12)] 65535) := ⟨rfl, rfl⟩

/-- For LatchedStepDoesNothing, StepStopsOnlyWhenLatched and the second clause of ResetTransaction. -/
theorem witness_latched :
    ((launch [0xFF]).latch (.unknownOpcode 0xFF 0)).fault = some (.unknownOpcode 0xFF 0) ∧
      transact (.memWrite 0 (.byte 0x12)) ⟨(launch [0xFF]).latch (.unknownOpcode 0xFF 0), false⟩ =
        .ok (⟨(launch [0x12]).latch (.unknownOpcode 0xFF 0), false⟩, .done) := by decide

theorem witness_UnusedRegistersDoNotMatter :
    Reg.r8 ∈ [Reg.r3, Reg.r4, Reg.r5, Reg.r6, Reg.r7, Reg.r8] ∧
      step topAdd = .next (mk 0 1 2 3 [(0xFFFF, 0x12)] 65536) ∧
      step (topAdd.latch (.outOfBounds 9)) = .fault (.outOfBounds 9) := ⟨by decide, rfl, rfl⟩

theorem witness_AccIsNeverRead :
    step (launch [0x10, 0, 7]) = .next ((launch [0x10, 0, 7]).setReg .r1 7 |>.setReg .ip 3) := rfl

/-- Opcode bytes written at `IP`: the three known ones with their operands in place, and an unknown one. -/
theorem witness_NextFetchSeesHostWrite_opcode :
    (launch [0xEE, 0xAB, 0xCD]).memWf = true ∧ (launch [0xEE, 0xAB, 0xCD]).fault = none ∧
      ([0x10, 0x11, 0x12, 0x13].map fun b => transact (.memWrite 0 (.byte b)) ⟨launch [0xEE, 0xAB, 0xCD], false⟩) =
        [0x10, 0x11, 0x12, 0x13].map (fun b => .ok (⟨launch [b, 0xAB, 0xCD], false⟩, .done)) ∧
      (launch [0xEE, 0xAB, 0xCD]).seenAfter 0 (.byte 0x11) 0 = .ok 0x11 ∧
      (launch [0xEE, 0xAB, 0xCD]).seenAfter 0 (.byte 0x11) 1 = .ok 0xAB ∧
      (launch [0xEE, 0xAB, 0xCD]).seenAfter 0 (.byte 0x11) 2 = .ok 0xCD := by decide

/-- Operand bytes written one and two at a time, two bytes over opcode and operand, and a move whose operands are
missing. -/
theorem witness_NextFetchSeesHostWrite_operands :
    transact (.memWrite 2 (.byte 0xCD)) ⟨launch [0x10, 0, 0], false⟩ =
        .ok (⟨launch [0x10, 0, 0xCD], false⟩, .done) ∧
      transact (.memWrite 1 (.word 0xABCD)) ⟨launch [0x11, 0, 0], false⟩ =
        .ok (⟨launch [0x11, 0xAB, 0xCD], false⟩, .done) ∧
      transact (.memWrite 0 (.word 0x10AB)) ⟨launch [0, 0, 0], false⟩ =
        .ok (⟨launch [0x10, 0xAB, 0], false⟩, .done) ∧
      transact (.memWrite 0 (.byte 0x10)) ⟨launch [0], false⟩ = .ok (⟨launch [0x10], false⟩, .done) ∧
      transact (.memWrite 0 (.byte 0x11)) ⟨launch [0, 7], false⟩ = .ok (⟨launch [0x11, 7], false⟩, .done) := by
  decide

theorem witness_RunFaultsWithinLen :
    (mk 0xFFFE 0 0 0 [(0xFFFE, 0x12)] 65535).fault = none ∧ (mk 0xFFFE 0 0 0 [(0xFFFE, 0x12)] 65535).len ≤ 65535 := by
  decide

theorem witness_FullRingOfAddsNeverFaults :
    (launch (List.replicate 65536 0x12)).fault = none ∧ (launch (List.replicate 65536 0x12)).len = 65536 ∧
      ∀ a, a < 65536 → (launch (List.replicate 65536 0x12)).read8 a = .ok 0x12 := by
  refine ⟨rfl, List.length_replicate, fun a ha => ?_⟩
  have h := State.load_read8 State.reset (List.replicate 65536 0x12) a (by rwa [List.length_replicate])
  rwa [List.getElem_replicate] at h

theorem witness_RunIsItsSteps_faulted :
    run 2 (launch [0xFF]) = .ok ((launch [0xFF]).latch (.unknownOpcode 0xFF 0), .faulted (.unknownOpcode 0xFF 0) 0) := by
  decide

theorem witness_RunIsItsSteps_success :
    Succeeds (launch [0x12]) (mk 1 0 0 0 [(0, 0x12)] 1) ∧
      run 1 (mk 1 0 0 0 [(0, 0x12)] 1) =
        .ok ((mk 1 0 0 0 [(0, 0x12)] 1).latch (.outOfBounds 1), .faulted (.outOfBounds 1) 0) := ⟨⟨rfl, rfl⟩, by decide⟩

theorem witness_RunIsItsSteps_exhausted :
    run 1 (launch [0x12]) = .ok (mk 1 0 0 0 [(0, 0x12)] 1, .budgetExhausted 1) ∧
      run 0 (mk 1 0 0 0 [(0, 0x12)] 1) = .ok (mk 1 0 0 0 [(0, 0x12)] 1, .budgetExhausted 0) ∧
      run 1 (mk 1 0 0 0 [(0, 0x12)] 1) =
        .ok ((mk 1 0 0 0 [(0, 0x12)] 1).latch (.outOfBounds 1), .faulted (.outOfBounds 1) 0) := by decide

/-- For TwoByteRead, ByteWrite, TwoByteWrite and HostAccessOutOfBounds: `LEN` is 2, and the addresses 0, 1, 2 fall
under the three clauses. -/
theorem witness_accesses :
    (launch [0xDE, 0xAD]).memWf = true ∧ (launch [0xDE, 0xAD]).len = 2 ∧ (launch [0xDE, 0xAD]).read8 0 = .ok 0xDE ∧
      (launch [0xDE, 0xAD]).read8 1 = .ok 0xAD := by decide

theorem witness_LoadTransaction :
    (List.replicate 65536 (0x12 : Byte)).length ≤ 65536 ∧ 65536 < (List.replicate 65537 (0x12 : Byte)).length ∧
      (Session.mk State.reset true).loadOpen = true ∧ (Session.mk State.reset false).loadOpen = false := by
  rw [List.length_replicate, List.length_replicate]
  decide

theorem witness_LoadOnlyOnceBeforeSteps :
    transact (.load [0x12]) ⟨State.reset, true⟩ = .ok (⟨launch [0x12], false⟩, .done) ∧
      transact .step ⟨launch [0x12], false⟩ = .ok (⟨mk 1 0 0 0 [(0, 0x12)] 1, false⟩, .stepped .ok) ∧
      transact (.run 1) ⟨launch [0x12], true⟩ =
        .ok (⟨mk 1 0 0 0 [(0, 0x12)] 1, false⟩, .ran (.budgetExhausted 1)) := by decide

theorem witness_LaunchState : (List.replicate 65536 (0x12 : Byte)).length ≤ 65536 := by
  rw [List.length_replicate]

theorem witness_InspectionReadsAll : 0 < (Session.mk (launch [0x12]) false).core.len := by decide

/-- A faulted core whose `IP` the host writes: the latched address stays in its range. -/
theorem witness_TransactionsKeepMemoryForm :
    InRange ((mk 0xFFFF 0 0 0 [(0xFFFF, 0x11)] 65536).latch (.outOfBounds 65536)) ∧
      transact (.regWrite .ip 0) ⟨(mk 0xFFFF 0 0 0 [(0xFFFF, 0x11)] 65536).latch (.outOfBounds 65536), false⟩ =
        .ok (⟨(mk 0 0 0 0 [(0xFFFF, 0x11)] 65536).latch (.outOfBounds 65536), false⟩, .done) :=
  ⟨⟨by decide, fun _ h => by cases h; decide⟩, rfl⟩

/-- Two states whose latch holds the highest address a step can record. -/
theorem witness_PortCodesAreFaithful :
    InRange ((mk 0xFFFF 0 0 0 [(0xFFFF, 0x11)] 65536).latch (.outOfBounds 65536)) ∧
      InRange ((mk 0xFFFE 5 0 0 [(0xFFFE, 0x10)] 65536).latch (.outOfBounds 65536)) :=
  ⟨⟨by decide, fun _ h => by cases h; decide⟩, ⟨by decide, fun _ h => by cases h; decide⟩⟩

theorem witness_RegisterNumbers : 10 ≤ 10 ∧ Reg.ofNumber 9 = some .r8 := by decide

end Sys2Proof.Tests
end

section
/-! SUPPORT. Registers: what one register write changes, and the statement about it. -/

namespace Sys2Proof.Machine

/-- The frame of a register write (10_state.md R12). -/
theorem State.setReg_changesOnly (s : State) (r : Reg) (v : Word) : ChangesOnly [r] s (s.setReg r v) := by
  refine ⟨fun r' hr' => ?otherRegisters, ⟨s.setReg_len r v, s.setReg_read8 r v⟩, s.setReg_fault r v⟩
  case otherRegisters =>
    have hne : r' ≠ r := List.ne_of_not_mem_cons hr'
    rw [s.setReg_reg, if_neg hne]

/-- Settles O5: the register itself by the read-after-write law, everything else by the frame of the write. -/
theorem registerWrite : Obligations.RegisterWrite := by
  intro s r v
  have hsame : (s.setReg r v).reg r = v := by rw [s.setReg_reg, if_pos rfl]
  exact ⟨hsame, s.setReg_changesOnly r v⟩

end Sys2Proof.Machine
end

section
/-! SUPPORT. Fetch, decode and step: what the fetch has read, what a meaning and fault entry leave unchanged, what STEP
answers, and the statements about them. -/

namespace Sys2Proof.Machine

variable {s t : State} {f : Fault} {i : Instr}

/-! ### The fetch -/

/-- An operand fetch that succeeds gives the move it was called for. -/
theorem State.fetchMove_ok {make : Word → Instr} (h : s.fetchMove make = .ok i) : ∃ imm, i = make imm := by
  obtain ⟨_, e⟩ | ⟨_, e⟩ | ⟨_, e⟩ := s.fetchMove_cases make <;> rw [e] at h <;> cases h
  exact ⟨_, rfl⟩

/-- The instruction fetched is of the variant the byte at `IP` decodes to (40_fetch_decode_step.md R66). -/
theorem State.fetch_ok_opcode (h : s.fetch = .ok i) :
    ∃ b, s.read8 s.addr = .ok b ∧ decodeOpcode b = some i.opcode := by
  obtain ⟨_, e⟩ | ⟨_, _, _, e⟩ | ⟨hb, e⟩ | ⟨hb, e⟩ | ⟨hb, e⟩ := s.fetch_cases <;> rw [e] at h
  · cases h
  · cases h
  · obtain ⟨imm, rfl⟩ := State.fetchMove_ok h
    exact ⟨0x10, hb, rfl⟩
  · obtain ⟨imm, rfl⟩ := State.fetchMove_ok h
    exact ⟨0x11, hb, rfl⟩
  · cases h
    exact ⟨0x12, hb, rfl⟩

/-! ### Frames -/

/-- Setting the latch is fault entry (60_exceptions.md R109). -/
theorem State.latch_faultEntered (s : State) (f : Fault) : FaultEntered s f (s.latch f) :=
  ⟨s.latch_fault f, fun r => s.latch_reg r f, s.latch_len f, fun a => s.latch_read8 a f⟩

/-- A faulting step enters its fault. -/
theorem faults_faultEntered (h : Faults s f t) : FaultEntered s f t := by
  obtain ⟨_, _, rfl⟩ := faults_cases h
  exact s.latch_faultEntered f

/-- One register write, then the sequencer's write of `IP`: nothing else changes. -/
theorem State.setReg_advance_changesOnly (s : State) (d : Reg) (v : Word) (w : Nat) :
    ChangesOnly [d, .ip] s ((s.setReg d v).advance w) := by
  refine ⟨fun r hr => ?otherRegisters, ⟨rfl, fun _ => rfl⟩, rfl⟩
  case otherRegisters =>
    obtain ⟨hd, hip⟩ : r ≠ d ∧ r ≠ .ip := by simpa using hr
    rw [State.advance_reg, if_neg hip, State.setReg_reg, if_neg hd]

/-! ### STEP -/

/-- The STEP transaction is the step, with the session closed to LOAD. -/
theorem transact_step {res : StepResult} (o : Bool) (h : stepTransaction s = .ok (t, res)) :
    transact .step { core := s, loadOpen := o } = .ok ({ core := t, loadOpen := false }, .stepped res) := by
  simp only [transact, h]

/-- What STEP returns: `Ok` for a success, else the fault that its latch holds. -/
theorem stepTransaction_answers (s : State) :
    ∃ t res, stepTransaction s = .ok (t, res) ∧
      ((res = .ok ∧ Succeeds s t) ∨ ∃ f, res = .fault f ∧ t.fault = some f) := by
  obtain ⟨t, hok, e⟩ | ⟨t, f, hf, e⟩ | ⟨f, hf, e⟩ := stepTransaction_cases s
  · exact ⟨t, .ok, e, .inl ⟨rfl, hok⟩⟩
  · exact ⟨t, .fault f, e, .inr ⟨f, rfl, hf.2⟩⟩
  · exact ⟨s, .fault f, e, .inr ⟨f, rfl, hf⟩⟩

/-! ### The statements -/

/-- Settles O24: a faulting first step ends the run, and what STEP returns is split by the two kinds of fault. -/
theorem stepResultIsOneOfThree : Obligations.StepResultIsOneOfThree := by
  refine ⟨fun s t f k hf => run_succ_of_faults k hf, fun s o => ?_⟩
  obtain ⟨t, res, e, hres⟩ := stepTransaction_answers s
  refine ⟨t, res, transact_step o e, ?_⟩
  obtain hok | ⟨f, hret, hlatch⟩ := hres
  · exact .inl hok
  · cases f with
    | unknownOpcode b a => exact .inr (.inl ⟨b, a, hret, hlatch⟩)
    | outOfBounds a => exact .inr (.inr ⟨a, hret, hlatch⟩)

/-- Settles O25: a success runs the one instruction fetched, whose writes are its destination and `IP`; a fault is
fault entry. -/
theorem stepIsAtomic : Obligations.StepIsAtomic := by
  refine ⟨fun s t h => ?success, ⟨rfl, rfl, rfl⟩, fun s f t h => (faults_faultEntered h).2⟩
  case success =>
    obtain ⟨_, i, v, hfetch, _, rfl⟩ := succeeds_cases h
    obtain ⟨b, hb, hop⟩ := State.fetch_ok_opcode hfetch
    exact ⟨b, i, hb, hop, hfetch, s.setReg_advance_changesOnly _ v _⟩

/-- Settles O7: the table by evaluation and by the characterisation of its failures, the address by the fetch of a
running state. -/
theorem decodeTable : Obligations.DecodeTable :=
  ⟨rfl, rfl, rfl, fun _ h10 h11 h12 => decodeOpcode_eq_none.2 ⟨h10, h11, h12⟩,
    fun _ _ hrun hb hnone => (faults_iff_fetch hrun).2 (State.fetch_unknown hb hnone)⟩

/-- Settles O18: with `IP` at or above `LEN` the fetch fails at the opcode byte, and the step latches that fault. -/
theorem opcodeFetchOutOfBounds : Obligations.OpcodeFetchOutOfBounds := by
  intro s hrun hlen
  exact ⟨_, step_fetch_error hrun (State.fetch_of_le hlen), s.latch_faultEntered _⟩

end Sys2Proof.Machine
end

section
/-! SUPPORT. The moves as steps: what their operand fetch answers, what a destination write and the sequencer leave in
the registers written, and the statement about them. -/

namespace Sys2Proof.Machine

variable {s : State} {d : Reg}

/-! ### The operand fetch of a move -/

/-- The first operand byte out of range (41_data_movement.md R80, R81). -/
theorem State.fetchMove_of_le (make : Word → Instr) (h : s.len ≤ s.addr + 1) :
    s.fetchMove make = .error (.outOfBounds (s.addr + 1)) := by
  rw [State.fetchMove, State.fetchImm, State.read16_of_le h]

/-- The second operand byte alone out of range (41_data_movement.md R80, R81). -/
theorem State.fetchMove_of_eq (make : Word → Instr) (h : s.len = s.addr + 2) :
    s.fetchMove make = .error (.outOfBounds (s.addr + 2)) := by
  rw [State.fetchMove, State.fetchImm, State.read16_of_eq h]

/-- Both operand bytes in range: the immediate is big-endian (20_memory.md R35). -/
theorem State.fetchMove_of_read8 (make : Word → Instr) {hi lo : Byte} (hhi : s.read8 (s.addr + 1) = .ok hi)
    (hlo : s.read8 (s.addr + 2) = .ok lo) : s.fetchMove make = .ok (make (joinBytes hi lo)) := by
  rw [State.fetchMove, State.fetchImm, State.read16_of_read8 hhi hlo]

/-! ### The registers written by an instruction -/

/-- The sequencer leaves the destination's new value alone. -/
theorem State.setReg_advance_reg_self (v : Word) (w : Nat) (hd : d ≠ .ip) :
    ((s.setReg d v).advance w).reg d = v := by
  rw [State.advance_reg, if_neg hd, State.setReg_reg, if_pos rfl]

/-- The sequencer advances the old `IP`, which the destination's write has not touched (10_state.md R19). -/
theorem State.setReg_advance_addr (v : Word) (w : Nat) (hd : d ≠ .ip) :
    ((s.setReg d v).advance w).addr = (s.addr + w) % 65536 := by
  rw [State.addr, State.advance_reg, if_pos rfl, State.setReg_reg, if_neg hd.symm, BitVec.toNat_add,
    BitVec.toNat_ofNat, Nat.add_mod_mod, State.addr]

/-! ### The statement -/

/-- Both moves alike: their fetch is the operand fetch, and their meaning loads the immediate into a register that is
not `IP` and advances by 3. -/
theorem State.fetch_move {op : Byte} (hop : (op = 0x10 ∧ d = .r1) ∨ (op = 0x11 ∧ d = .r2))
    (hb : s.read8 s.addr = .ok op) :
    d ≠ .ip ∧ ∃ make, s.fetch = s.fetchMove make ∧
      ∀ imm, exec (make imm) s = .next ((s.setReg d imm).advance 3) := by
  obtain ⟨rfl, rfl⟩ | ⟨rfl, rfl⟩ := hop
  · exact ⟨by decide, .movR1, State.fetch_movR1 hb, fun imm => execMovR1_next imm s⟩
  · exact ⟨by decide, .movR2, State.fetch_movR2 hb, fun imm => execMovR2_next imm s⟩

/-- Settles O16: one argument for both moves, split by which operand byte is out of range. -/
theorem moveStep : Obligations.MoveStep := by
  intro s op d hop hrun hb
  obtain ⟨hd, make, hfetch, hexec⟩ := State.fetch_move hop hb
  refine ⟨fun h1 => ?firstMissing, fun h1 h2 => ?secondMissing, fun hi lo hhi hlo => ?loaded⟩
  case firstMissing =>
    have herr := hfetch.trans (State.fetchMove_of_le make h1)
    exact ⟨_, step_fetch_error hrun herr, s.latch_faultEntered _⟩
  case secondMissing =>
    have herr := hfetch.trans (State.fetchMove_of_eq make (Nat.le_antisymm h2 h1))
    exact ⟨_, step_fetch_error hrun herr, s.latch_faultEntered _⟩
  case loaded =>
    have hok := hfetch.trans (State.fetchMove_of_read8 make hhi hlo)
    refine ⟨_, (step_fetch_ok hrun hok).trans (hexec _), ?_, State.setReg_advance_addr _ 3 hd,
      s.setReg_advance_changesOnly d _ 3⟩
    rw [State.setReg_advance_reg_self _ 3 hd, joinBytes_toNat]

end Sys2Proof.Machine
end

section
/-! SUPPORT. Arithmetic: the value of the wrapping sum, its inverse, the step at an addition, and the statements about
them. -/

namespace Sys2Proof.Machine

variable {s : State}

/-! ### Wrapping addition -/

/-- The wrapping sum as a number (42_arithmetic.md R84). -/
theorem add16_toNat (a b : Word) : (add16 a b).toNat = (a.toNat + b.toNat) % 65536 :=
  BitVec.toNat_add a b

theorem add16_toNat_of_le {a b : Word} (h : a.toNat + b.toNat ≤ 65535) :
    (add16 a b).toNat = a.toNat + b.toNat := by
  rw [add16_toNat, Nat.mod_eq_of_lt (Nat.lt_succ_of_le h)]

/-- Past 65535 the sum is short by the one carry that is discarded: two words never carry twice. -/
theorem add16_toNat_of_lt {a b : Word} (h : 65535 < a.toNat + b.toNat) :
    (add16 a b).toNat = a.toNat + b.toNat - 65536 := by
  have hlt : a.toNat + b.toNat - 65536 < 65536 := by
    have ha := a.isLt
    have hb := b.isLt
    omega
  rw [add16_toNat, Nat.mod_eq_sub_mod h, Nat.mod_eq_of_lt hlt]

/-- The inverse holds for 0 too, whose `65536 - 0` the word truncates back to 0. -/
theorem add16_inverse (a : Word) : add16 a (BitVec.ofNat 16 (65536 - a.toNat)) = 0 := by
  apply BitVec.eq_of_toNat_eq
  calc (add16 a (BitVec.ofNat 16 (65536 - a.toNat))).toNat
      _ = (a.toNat + (65536 - a.toNat)) % 65536 := by
        rw [add16_toNat, BitVec.toNat_ofNat, Nat.add_mod_mod]
      _ = 65536 % 65536 := by rw [Nat.add_sub_cancel' a.isLt.le]

/-- The sequencer adds with the same adder (10_state.md R19). -/
theorem State.advance_ip_eq_add16 (s : State) (w : Nat) :
    (s.advance w).reg .ip = add16 (s.reg .ip) (BitVec.ofNat 16 w) :=
  State.advance_reg s .ip w

/-! ### The step -/

/-- With the opcode byte of the addition at `IP`, the step needs no further byte: it is the instruction's two writes
(42_arithmetic.md R83). -/
theorem step_addR1R2 (hrun : s.fault = none) (hb : s.read8 s.addr = .ok 0x12) :
    step s = .next ((s.setReg .acc (add16 (s.reg .r1) (s.reg .r2))).advance 1) :=
  (step_fetch_ok hrun (State.fetch_addR1R2 hb)).trans (execAddR1R2_next s)

/-! ### The statements -/

/-- Settles O17: the step is the two writes of the addition, whose values and frame are those of any destination write
followed by the sequencer's. -/
theorem addStep : Obligations.AddStep := by
  intro s hrun hb
  have hd : Reg.acc ≠ .ip := by decide
  refine ⟨_, step_addR1R2 hrun hb, ?sum, State.setReg_advance_addr _ 1 hd, s.setReg_advance_changesOnly .acc _ 1⟩
  case sum => rw [State.setReg_advance_reg_self _ 1 hd, add16_toNat]

/-- Settles O6: the two cases of the sum by its value as a number, the algebraic and the signed laws from those of
words. -/
theorem wrappingAdditionLaws : Obligations.WrappingAdditionLaws :=
  ⟨fun _ _ => add16_toNat_of_le, fun _ _ => add16_toNat_of_lt, BitVec.add_comm, BitVec.add_assoc,
    BitVec.add_zero, fun a _ => add16_inverse a, BitVec.toInt_add, State.advance_ip_eq_add16⟩

end Sys2Proof.Machine
end

section
/-! SUPPORT. Inspection: what a dump of memory holds, and the statements about the transactions that only read. -/

namespace Sys2Proof.Machine

variable {s : State} {a : Nat}

/-! ### The dump -/

/-- A run of bytes wholly below `LEN` is not cut short: it is one byte for each of its addresses. -/
theorem State.bytesAt_eq_map_range' {n : Nat} (h : a + n ≤ s.len) :
    s.bytesAt a n = (List.range' a n).map s.mem.get := by
  induction n generalizing a with
  | zero => rfl
  | succ n ih =>
    have hhead : s.read8 a = .ok (s.mem.get a) := State.read8_of_lt (by omega)
    have htail := ih (a := a + 1) (by omega)
    rw [State.bytesAt_succ_of_read8 n hhead, htail, List.range'_succ, List.map_cons]

/-- The memory part of the dump, in the order of its addresses (50_interfaces.md R96). -/
theorem State.dump_snd (s : State) : s.dump.2 = (List.range' 0 s.len).map s.mem.get :=
  State.bytesAt_eq_map_range' (Nat.zero_add s.len).le

theorem State.dump_length (s : State) : s.dump.2.length = s.len := by
  rw [State.dump_snd, List.length_map, List.length_range']

theorem State.dump_getElem? (h : a < s.len) : s.dump.2[a]? = some (s.mem.get a) := by
  rw [State.dump_snd, List.getElem?_map, List.getElem?_range' h, Option.map_some, Nat.zero_add, Nat.one_mul]

/-! ### The transactions that only read -/

/-- A one-byte MEM_READ of an address in range returns its byte (50_interfaces.md R98). -/
theorem transact_memRead_one {h : Session} {b : Byte} (hb : h.core.read8 a = .ok b) :
    transact (.memRead a .one) h = .ok (h, .mem (.byte b)) := by
  simp only [transact, State.hostRead, hb]

/-! ### The statements -/

/-- Settles O42: below `LEN` the dump, the read primitive and MEM_READ all give the byte the memory list holds. -/
theorem inspectionReadsAll : Obligations.InspectionReadsAll := by
  refine ⟨fun s => ⟨rfl, s.dump_length⟩, fun h r => rfl, fun h a ha => ?byteAt⟩
  case byteAt =>
    have hread : h.core.read8 a = .ok (h.core.mem.get a) := State.read8_of_lt ha
    exact ⟨_, State.dump_getElem? ha, hread, transact_memRead_one hread⟩

/-- Settles O43: the model's FAULT_READ is that answer, word for word. -/
theorem faultReadTransaction : Obligations.FaultReadTransaction := fun _ => rfl

end Sys2Proof.Machine
end

section
/-! SUPPORT. The latch across transactions: everything an answered transaction can do to the session, that a faulted
core stays faulted, and the statement about RESET. -/

namespace Sys2Proof.Machine

variable {s t : State} {f : Fault}

/-! ### What a transaction can do -/

/-- What an answered transaction can do to the session: one of the six that write, or nothing at all
(50_interfaces.md R90 to R100). -/
inductive TransactEffect (h : Session) : Transaction → Session → Prop
  | reset : TransactEffect h .reset ⟨State.reset, true⟩
  | load {image : List Byte} (hopen : h.loadOpen = true) (hlen : image.length ≤ Config.maxLen) :
    TransactEffect h (.load image) ⟨h.core.load image, false⟩
  | step {t : State} {res : StepResult} (hstep : stepTransaction h.core = .ok (t, res)) :
    TransactEffect h .step ⟨t, false⟩
  | run {n : Nat} {t : State} {res : RunResult} (hrun : run n h.core = .ok (t, res)) :
    TransactEffect h (.run n) ⟨t, h.loadOpen && n == 0⟩
  | regWrite (q : Reg) (v : Word) : TransactEffect h (.regWrite q v) ⟨h.core.setReg q v, h.loadOpen⟩
  | memWrite {a : Nat} {d : Datum} {t : State} (hwrite : h.core.hostWrite a d = .ok t) :
    TransactEffect h (.memWrite a d) ⟨t, h.loadOpen⟩
  | nothing {tx : Transaction} (hne : tx ≠ .reset) : TransactEffect h tx h

/-- Every answer of the host interface has one of these effects. -/
theorem transact_effect {tx : Transaction} {h h' : Session} {r : Response} (e : transact tx h = .ok (h', r)) :
    TransactEffect h tx h' := by
  cases tx with
  | reset =>
    cases e
    exact .reset
  | load image =>
    simp only [transact] at e
    split at e
    · cases e
    · next hopen =>
      split at e
      · cases e
      · next hlen =>
        cases e
        exact .load (not_not.1 hopen) (of_decide_eq_true (not_not.1 hlen))
  | step =>
    simp only [transact] at e
    split at e
    · cases e
    · next hstep =>
      cases e
      exact .step hstep
  | run n =>
    simp only [transact] at e
    split at e
    · cases e
    · next hrun =>
      cases e
      exact .run hrun
  | regRead q =>
    cases e
    exact .nothing nofun
  | regWrite q v =>
    cases e
    exact .regWrite q v
  | memRead a w =>
    simp only [transact] at e
    split at e <;> cases e <;> exact .nothing nofun
  | memWrite a d =>
    simp only [transact] at e
    split at e
    · next hwrite =>
      cases e
      exact .memWrite hwrite
    · cases e
      exact .nothing nofun
  | faultRead =>
    cases e
    exact .nothing nofun

/-! ### The latch -/

/-- A host write of memory does not touch the latch (50_interfaces.md R99), in canonical form or not. -/
theorem State.hostWrite_fault {a : Nat} {d : Datum} (h : s.hostWrite a d = .ok t) : t.fault = s.fault := by
  cases d with
  | byte b =>
    obtain ⟨_, rfl⟩ := State.write8_ok h
    rfl
  | word v =>
    obtain ⟨_, rfl⟩ := State.write16_ok h
    rfl

/-- A run of a faulted core takes no step, whatever its budget (40_fetch_decode_step.md R72, R76). -/
theorem run_latched_state {n : Nat} {res : RunResult} (hf : s.fault = some f) (h : run n s = .ok (t, res)) :
    t = s := by
  cases n with
  | zero =>
    cases h
    rfl
  | succ k =>
    rw [run_succ_of_latched k hf] at h
    cases h
    rfl

/-- Only RESET leaves the faulted condition (50_interfaces.md R90). -/
theorem transact_keeps_latch {tx : Transaction} {h h' : Session} {r : Response} (hf : h.core.fault = some f)
    (e : transact tx h = .ok (h', r)) (hne : tx ≠ .reset) : h'.core.fault = some f := by
  cases transact_effect e with
  | reset => exact absurd rfl hne
  | step hstep =>
    rw [stepTransaction_latched hf] at hstep
    cases hstep
    exact hf
  | run hrun =>
    rw [run_latched_state hf hrun]
    exact hf
  | memWrite hwrite => exact (State.hostWrite_fault hwrite).trans hf
  | load | regWrite | nothing => exact hf

/-! ### The statement -/

/-- Settles O36: RESET answers the reset state, whose fields are those of its laws; every other transaction keeps a set
latch. -/
theorem resetTransaction : Obligations.ResetTransaction := by
  refine ⟨fun h => ⟨⟨State.reset, true⟩, rfl, ?registers, rfl, ?memory, rfl, rfl⟩, fun tx h h' r f hf e => ?latch⟩
  case registers => exact State.reset_reg
  case memory => exact fun a => State.read8_of_le (Nat.zero_le a)
  case latch => exact or_iff_not_imp_left.2 (transact_keeps_latch hf e)

end Sys2Proof.Machine
end

section
/-! SUPPORT. Faults: the causes of a fault of the fetch as an equivalence, and the statements about causes and fault
entry. -/

namespace Sys2Proof.Machine

variable {s : State} {f : Fault}

/-! ### The causes -/

/-- The byte at `IP` is the opcode of a move, the one format with operand bytes (30_encoding.md R53, R63). -/
def State.MoveAtIp (s : State) : Prop := s.read8 s.addr = .ok 0x10 ∨ s.read8 s.addr = .ok 0x11

/-- The four places where the fetch raises a fault, in the order of the step (60_exceptions.md R103, R104). -/
inductive FetchFault (s : State) : Fault → Prop
  | opcodeMissing (h : s.len ≤ s.addr) : FetchFault s (.outOfBounds s.addr)
  | unknownOpcode {b : Byte} (hb : s.read8 s.addr = .ok b) (hnone : decodeOpcode b = none) :
    FetchFault s (.unknownOpcode b s.addr)
  | firstOperandMissing (hmove : s.MoveAtIp) (h : s.len ≤ s.addr + 1) : FetchFault s (.outOfBounds (s.addr + 1))
  | secondOperandMissing (hmove : s.MoveAtIp) (h : s.addr + 1 < s.len) (h' : s.len ≤ s.addr + 2) :
    FetchFault s (.outOfBounds (s.addr + 2))

theorem State.MoveAtIp.fetch_eq_fetchMove (h : s.MoveAtIp) : ∃ make, s.fetch = s.fetchMove make :=
  h.elim (fun h10 => ⟨_, State.fetch_movR1 h10⟩) (fun h11 => ⟨_, State.fetch_movR2 h11⟩)

/-- The operand fetch of a move adds the two operand places. -/
theorem State.fetchMove_error {make : Word → Instr} (hmove : s.MoveAtIp) (h : s.fetchMove make = .error f) :
    FetchFault s f := by
  obtain ⟨hlen, e⟩ | ⟨hlen, e⟩ | ⟨_, e⟩ := s.fetchMove_cases make <;> rw [e] at h <;> cases h
  · exact .firstOperandMissing hmove hlen
  · exact .secondOperandMissing hmove (by omega) hlen.le

/-- The fetch fails exactly in these four places, with these records. -/
theorem State.fetch_error_iff : s.fetch = .error f ↔ FetchFault s f := by
  constructor
  · intro h
    obtain ⟨hlen, e⟩ | ⟨b, hb, hnone, e⟩ | ⟨h10, e⟩ | ⟨h11, e⟩ | ⟨_, e⟩ := s.fetch_cases <;> rw [e] at h
    · cases h
      exact .opcodeMissing hlen
    · cases h
      exact .unknownOpcode hb hnone
    · exact State.fetchMove_error (.inl h10) h
    · exact State.fetchMove_error (.inr h11) h
    · cases h
  · intro h
    cases h with
    | opcodeMissing hlen => exact State.fetch_of_le hlen
    | unknownOpcode hb hnone => exact State.fetch_unknown hb hnone
    | firstOperandMissing hmove hlen =>
      obtain ⟨make, e⟩ := hmove.fetch_eq_fetchMove
      exact e.trans (State.fetchMove_of_le make hlen)
    | secondOperandMissing hmove hlo hhi =>
      obtain ⟨make, e⟩ := hmove.fetch_eq_fetchMove
      exact e.trans (State.fetchMove_of_eq make (Nat.le_antisymm hhi hlo))

/-- The step of a running state faults exactly in these four places. -/
theorem faults_iff_fetchFault (hrun : s.fault = none) : (∃ t, Faults s f t) ↔ FetchFault s f :=
  (faults_iff_fetch hrun).trans State.fetch_error_iff

/-! ### The statements -/

/-- Settles O19: of the four places one alone raises `UnknownOpcode`, at a byte outside the opcode table. -/
theorem unknownOpcodeCause : Obligations.UnknownOpcodeCause := by
  intro s b a hrun
  rw [faults_iff_fetchFault hrun]
  constructor
  · intro h
    cases h with
    | unknownOpcode hb hnone => exact ⟨rfl, (State.read8_ok hb).1, hb, decodeOpcode_eq_none.1 hnone⟩
  · rintro ⟨rfl, _, hb, hbytes⟩
    exact .unknownOpcode hb (decodeOpcode_eq_none.2 hbytes)

/-- Settles O20: the other three places are those of `OutOfBounds`; the bound is that of every fault of the fetch. -/
theorem outOfBoundsCause : Obligations.OutOfBoundsCause := by
  intro s a hrun
  rw [faults_iff_fetchFault hrun]
  refine ⟨⟨fun h => ?places, ?raised⟩, fun hlen h => State.fetch_error_addr hlen (State.fetch_error_iff.2 h)⟩
  case places =>
    cases h with
    | opcodeMissing h => exact .inl ⟨rfl, h⟩
    | firstOperandMissing hmove h => exact .inr ⟨hmove, .inl ⟨rfl, h⟩⟩
    | secondOperandMissing hmove h h' => exact .inr ⟨hmove, .inr ⟨rfl, h, h'⟩⟩
  case raised =>
    rintro (⟨rfl, h⟩ | ⟨hmove, ⟨rfl, h⟩ | ⟨rfl, h, h'⟩⟩)
    · exact .opcodeMissing h
    · exact .firstOperandMissing hmove h
    · exact .secondOperandMissing hmove h h'

/-- Settles O21: a faulting step is fault entry, and STEP returns the fault it latched. -/
theorem faultEntry : Obligations.FaultEntry := fun _ _ _ h =>
  ⟨faults_faultEntered h, fun o => transact_step o (stepTransaction_fault h)⟩

end Sys2Proof.Machine
end

section
/-! SUPPORT. Reset: what an empty memory reads as, and the statement about the state after reset. -/

namespace Sys2Proof.Machine

/-! ### Memory -/

/-- After reset no byte is addressable, and the fault names the address asked for (70_reset_and_hazards.md R123). -/
theorem State.reset_read8 (a : Nat) : State.reset.read8 a = .error (.outOfBounds a) :=
  State.read8_of_le (State.reset_len.trans_le (Nat.zero_le a))

/-! ### The statement -/

/-- Settles O1: each part is the law of `State.reset` for that field; no address is below the length 0. -/
theorem resetState : Obligations.ResetState :=
  ⟨State.reset_reg, State.reset_len, State.reset_read8, State.reset_fault⟩

end Sys2Proof.Machine
end

section
/-! SUPPORT. Decoder and encoder: an equation for each opcode byte, what the operand decoder answers, and the statements
about encodings. -/

namespace Sys2Proof

/-! ### The decoder -/

theorem decode_movR1 (bs : List Byte) : decode (0x10 :: bs) = decodeImm .movR1 bs := rfl

theorem decode_movR2 (bs : List Byte) : decode (0x11 :: bs) = decodeImm .movR2 bs := rfl

theorem decode_addR1R2 (bs : List Byte) : decode (0x12 :: bs) = .ok .addR1R2 bs := rfl

theorem decode_unknown {b : Byte} (hb : decodeOpcode b = none) (bs : List Byte) :
    decode (b :: bs) = .unknownOpcode b := by
  simp only [decode, hb]

/-- The operand decoder answers exactly for the two bytes of an immediate, high byte first (30_encoding.md R52, R54). -/
theorem decodeImm_eq_ok {make : Word → Instr} {bs rest : List Byte} {i : Instr} :
    decodeImm make bs = .ok i rest ↔ ∃ imm, i = make imm ∧ bs = hiByte imm :: loByte imm :: rest := by
  constructor
  · intro h
    match bs with
    | [] => cases h
    | [_] => cases h
    | hi :: lo :: bs =>
      cases h
      exact ⟨joinBytes hi lo, rfl, by rw [hiByte_joinBytes, loByte_joinBytes]⟩
  · rintro ⟨imm, rfl, rfl⟩
    rw [decodeImm, joinBytes_hiByte_loByte]

/-- No instruction of this set is ill-formed (30_encoding.md R59). -/
theorem Instr.wellFormed_eq_true (i : Instr) : i.wellFormed = true := by
  cases i <;> rfl

/-! ### The statements -/

/-- Settles O9: the opcode byte selects the constructor, and the operand decoder joins the two halves of the
immediate. -/
theorem decodeOfEncode : Obligations.DecodeOfEncode := by
  intro i rest _
  cases i with
  | movR1 imm => exact (decode_movR1 _).trans (decodeImm_eq_ok.2 ⟨imm, rfl, rfl⟩)
  | movR2 imm => exact (decode_movR2 _).trans (decodeImm_eq_ok.2 ⟨imm, rfl, rfl⟩)
  | addR1R2 => exact decode_addR1R2 rest

/-- Settles O10: an answer `ok` comes from one of the three opcode bytes, and the operand bytes of a move are the halves
of its immediate. -/
theorem encodeOfDecode : Obligations.EncodeOfDecode := by
  intro bs i rest h
  refine ⟨i.wellFormed_eq_true, ?bytes⟩
  case bytes =>
    cases bs with
    | nil => cases h
    | cons b bs =>
      cases hop : decodeOpcode b with
      | none =>
        rw [decode_unknown hop] at h
        cases h
      | some op =>
        obtain ⟨rfl, _⟩ | ⟨rfl, _⟩ | ⟨rfl, _⟩ := decodeOpcode_eq_some hop
        · obtain ⟨imm, rfl, rfl⟩ := decodeImm_eq_ok.1 h
          rfl
        · obtain ⟨imm, rfl, rfl⟩ := decodeImm_eq_ok.1 h
          rfl
        · cases h
          rfl

/-- Settles O8: the decoder evaluated on each word. -/
theorem writtenOutWordsDecode : Obligations.WrittenOutWordsDecode :=
  ⟨rfl, rfl, rfl, rfl, rfl, rfl⟩

end Sys2Proof
end

section
/-! SUPPORT. The invariant: the latch after a step, and the statements that reset and every step meet it. -/

namespace Sys2Proof.Machine

variable {s t : State}

/-! ### The latch -/

/-- A state whose latch is clear meets the latch clause of the invariant. -/
theorem LatchLegal.of_running (hrun : s.fault = none) : LatchLegal s := by
  intro f hf
  rw [hrun] at hf
  cases hf

/-- After any step the latch is clear or holds the fault of the fetch, which does not look at the latch: fault entry
leaves `IP` and memory as the fetch read them (60_exceptions.md R109). -/
theorem step_latchLegal (h : step s = .next t) : LatchLegal t := by
  obtain ⟨hrun, ⟨g, hg, rfl⟩ | ⟨i, v, _, _, rfl⟩⟩ := step_next_cases h
  · intro f hf
    cases hf
    exact (s.latch_fetch g).trans hg
  · exact .of_running hrun

/-- The reset state is in range: its memory is empty and its latch clear. -/
theorem State.reset_inRange : InRange State.reset := ⟨State.reset_memWf, nofun⟩

/-! ### The statements -/

/-- Settles O3: the ranges are kept by every step, and the latch clause holds after every step from any state. -/
theorem stepKeepsInvariant : Obligations.StepKeepsInvariant := fun _ _ hinv h =>
  ⟨step_inRange hinv.1 h, step_latchLegal h⟩

/-- Settles O2: reset is in range and running. -/
theorem resetSatisfiesInvariant : Obligations.ResetSatisfiesInvariant :=
  ⟨State.reset_inRange, .of_running State.reset_fault⟩

end Sys2Proof.Machine
end

section
/-! SUPPORT. What every step keeps, STEP and RUN keep, and the statement that every transaction keeps the memory's
form. -/

namespace Sys2Proof.Machine

variable {s t : State}

/-! ### STEP, RUN and MEM_WRITE -/

/-- STEP leaves the state as it was or takes one step. -/
theorem stepTransaction_preserves {P : State → Prop} (hstep : ∀ s t, P s → step s = .next t → P t)
    {res : StepResult} (hs : P s) (e : stepTransaction s = .ok (t, res)) : P t := by
  obtain ⟨u, hu, e'⟩ | ⟨u, f, hu, e'⟩ | ⟨f, _, e'⟩ := stepTransaction_cases s <;> cases e'.symm.trans e
  · exact hstep s t hs hu.1
  · exact hstep s t hs hu.1
  · exact hs

/-- The induction over a run: what every step keeps, the run keeps (40_fetch_decode_step.md R76). -/
theorem runFrom_preserves {P : State → Prop} (hstep : ∀ s t, P s → step s = .next t → P t)
    {n k : Nat} {res : RunResult} (hs : P s) (e : runFrom n k s = .ok (t, res)) : P t := by
  induction k generalizing n s with
  | zero =>
    cases e
    exact hs
  | succ k ih =>
    rw [runFrom] at e
    obtain ⟨u, res', e', _⟩ := stepTransaction_answers s
    have hu : P u := stepTransaction_preserves hstep hs e'
    rw [e'] at e
    cases res' with
    | ok => exact ih hu e
    | fault f =>
      cases e
      exact hu

/-- A host write of memory keeps everything in its range. -/
theorem State.hostWrite_inRange {a : Nat} {d : Datum} (hs : InRange s) (e : s.hostWrite a d = .ok t) : InRange t := by
  obtain ⟨hmem, _, _, hfault, _⟩ := State.hostWrite_ok hs.1 e
  exact ⟨hmem, fun f hf => hs.2 f (hfault.symm.trans hf)⟩

/-! ### The statement -/

/-- Settles O44: by the six effects a transaction can have; RUN by induction over its steps. -/
theorem transactionsKeepMemoryForm : Obligations.TransactionsKeepMemoryForm := by
  intro tx h h' r e hs
  cases transact_effect e with
  | reset => exact State.reset_inRange
  | load _ hlen => exact ⟨h.core.load_memWf hlen, hs.2⟩
  | step hstep => exact stepTransaction_preserves (fun _ _ => step_inRange) hs hstep
  | run hrun => exact runFrom_preserves (fun _ _ => step_inRange) hs hrun
  | regWrite q v => exact ⟨(h.core.setReg_memWf q v).trans hs.1, hs.2⟩
  | memWrite hwrite => exact State.hostWrite_inRange hs hwrite
  | nothing => exact hs

end Sys2Proof.Machine
end

section
/-! SUPPORT. The step and the decoder: the fetch is the decoder on the bytes at `IP`, and the statements that follow
from it. -/

namespace Sys2Proof.Machine

variable {s : State}

/-! ### The fetch as decoding -/

/-- What the fetch answers where the bytes at `IP` decode to this: the instruction, or the fault with its address
(40_fetch_decode_step.md R67, R68). -/
def State.fetchOf (s : State) : Decoded → Except Fault Instr
  | .ok i _ => .ok i
  | .unknownOpcode b => .error (.unknownOpcode b s.addr)
  | .truncated k => .error (.outOfBounds (s.addr + k))

/-- The operand fetch is the operand decoder on the two bytes after the opcode byte. -/
theorem State.fetchMove_eq_decodeImm (s : State) (make : Word → Instr) :
    s.fetchMove make = s.fetchOf (decodeImm make (s.bytesAt (s.addr + 1) 2)) := by
  obtain ⟨hlen, e⟩ | ⟨hlen, e⟩ | ⟨hlen, e⟩ := s.fetchMove_cases make
  · rw [e, State.bytesAt_of_le 2 hlen]
    rfl
  · rw [e, State.bytesAt_succ_of_read8 1 (State.read8_of_lt (by omega)), State.bytesAt_of_le 1 (by omega)]
    rfl
  · rw [e, State.bytesAt_eq_map_range' (by omega)]
    rfl

/-- The fetch is the decoder on the three bytes at `IP`, as far as memory has them (40_fetch_decode_step.md R64). -/
theorem State.fetch_eq_decode (s : State) : s.fetch = s.fetchOf (decode (s.bytesAt s.addr 3)) := by
  obtain ⟨hlen, e⟩ | ⟨b, hb, hnone, e⟩ | ⟨hb, e⟩ | ⟨hb, e⟩ | ⟨hb, e⟩ := s.fetch_cases
  · rw [e, State.bytesAt_of_le 3 hlen]
    rfl
  · rw [e, State.bytesAt_succ_of_read8 2 hb, decode_unknown hnone]
    rfl
  · rw [e, State.bytesAt_succ_of_read8 2 hb, decode_movR1, State.fetchMove_eq_decodeImm]
  · rw [e, State.bytesAt_succ_of_read8 2 hb, decode_movR2, State.fetchMove_eq_decodeImm]
  · rw [e, State.bytesAt_succ_of_read8 2 hb, decode_addR1R2]
    rfl

/-- A fault of the fetch is entered by the step of a running state (60_exceptions.md R109). -/
theorem step_enters_of_fetch_error {f : Fault} (hrun : s.fault = none) (h : s.fetch = .error f) :
    ∃ t, step s = .next t ∧ FaultEntered s f t :=
  ⟨_, step_fetch_error hrun h, s.latch_faultEntered f⟩

/-- No encoding is longer than the three bytes a fetch looks at (30_encoding.md R51). -/
theorem encode_length_le (i : Instr) : (encode i).length ≤ 3 := by
  cases i with
  | movR1 imm => exact Nat.le_of_eq (Laws.EncodeLength.movR1 imm)
  | movR2 imm => exact Nat.le_of_eq (Laws.EncodeLength.movR2 imm)
  | addR1R2 => decide

/-- A run of bytes of a loaded image is that part of the image. -/
theorem State.load_bytesAt (s : State) (image : List Byte) (a n : Nat) :
    (s.load image).bytesAt a n = (image.drop a).take n := by
  induction n generalizing a with
  | zero => rfl
  | succ n ih =>
    by_cases ha : a < image.length
    · rw [State.bytesAt_succ_of_read8 n (s.load_read8 image a ha), ih, List.drop_eq_getElem_cons ha,
        List.take_succ_cons]
    · have hlen : image.length ≤ a := Nat.le_of_not_lt ha
      rw [State.bytesAt_of_le _ hlen, List.drop_eq_nil_of_le hlen, List.take_nil]

/-! ### The statements -/

/-- Settles O11: the fetch answers the instruction decoded, and the step of a running state runs it. -/
theorem stepRunsDecodedInstruction : Obligations.StepRunsDecodedInstruction := by
  intro s i rest hrun _ hdec
  have hfetch : s.fetch = .ok i := by rw [s.fetch_eq_decode, hdec, State.fetchOf]
  exact step_fetch_ok hrun hfetch

/-- Settles O12: either failure of the decoder is a fault of the fetch, which the step enters. -/
theorem stepFaultsWhereDecodeFails : Obligations.StepFaultsWhereDecodeFails := by
  intro s hrun
  refine ⟨fun b hdec => step_enters_of_fetch_error hrun ?_, fun k hdec => step_enters_of_fetch_error hrun ?_⟩ <;>
    rw [s.fetch_eq_decode, hdec, State.fetchOf]

/-- Settles O13: the three bytes at address 0 begin with the encoding, which is no longer than three bytes. -/
theorem firstInstructionOfImageRuns : Obligations.FirstInstructionOfImageRuns := by
  intro i rest _
  have hbytes : (launch (encode i ++ rest)).bytesAt 0 3 = encode i ++ rest.take (3 - (encode i).length) := by
    rw [launch, State.load_bytesAt, List.drop_zero, List.take_append,
      List.take_of_length_le (encode_length_le i)]
  have hdec : decode ((launch (encode i ++ rest)).bytesAt 0 3) = .ok i _ :=
    (congrArg decode hbytes).trans (decodeOfEncode i _ i.wellFormed_eq_true)
  exact stepRunsDecodedInstruction _ i _ rfl i.wellFormed_eq_true hdec

end Sys2Proof.Machine
end

section
/-! SUPPORT. How a step ends: completion of the three meanings, the latched step, and the statements about them. -/

namespace Sys2Proof.Machine

variable {s : State} {f : Fault}

/-! ### The outcomes of a step -/

/-- The outcome `fault` is that of the latch test alone (40_fetch_decode_step.md R72; log entry 1). -/
theorem step_eq_fault_iff : step s = .fault f ↔ s.fault = some f := by
  refine ⟨fun h => ?latched, step_latched⟩
  case latched =>
    cases hs : s.fault with
    | none =>
      obtain ⟨t, ht⟩ := step_running hs
      cases ht.symm.trans h
    | some g =>
      cases (step_latched hs).symm.trans h
      rfl

theorem step_ne_refused (r : Refusal) : step s ≠ .refused r := by
  cases hs : s.fault with
  | none =>
    obtain ⟨t, ht⟩ := step_running hs
    rw [ht]
    nofun
  | some g =>
    rw [step_latched hs]
    nofun

/-! ### The statements -/

/-- Settles O23: a running state has a next state, and the latch test answers with the latch's fault. -/
theorem stepStopsOnlyWhenLatched : Obligations.StepStopsOnlyWhenLatched := fun _ =>
  ⟨step_running, fun _ => step_eq_fault_iff, step_ne_refused⟩

/-- Settles O22: the latch test comes first, and STEP returns what it answers. -/
theorem latchedStepDoesNothing : Obligations.LatchedStepDoesNothing := fun _ _ hf =>
  ⟨step_latched hf, fun o => transact_step o (stepTransaction_latched hf)⟩

/-- Settles O4: after reset `IP` is 0 and so is `LEN`: the opcode fetch is out of bounds at 0. -/
theorem stepAfterResetFaults : Obligations.StepAfterResetFaults :=
  opcodeFetchOutOfBounds State.reset State.reset_fault (Nat.zero_le _)

/-- Settles O14: each move is the write of its destination followed by the sequencer's. -/
theorem movesComplete : Obligations.MovesComplete := by
  intro imm s
  have hr1 : Reg.r1 ≠ .ip := by decide
  have hr2 : Reg.r2 ≠ .ip := by decide
  exact ⟨⟨_, execMovR1_next imm s, State.setReg_advance_reg_self imm 3 hr1, State.setReg_advance_addr imm 3 hr1,
      s.setReg_advance_changesOnly .r1 imm 3⟩,
    ⟨_, execMovR2_next imm s, State.setReg_advance_reg_self imm 3 hr2, State.setReg_advance_addr imm 3 hr2,
      s.setReg_advance_changesOnly .r2 imm 3⟩⟩

/-- Settles O15: the addition is the write of `ACC` followed by the sequencer's. -/
theorem addCompletes : Obligations.AddCompletes := by
  intro s
  have hacc : Reg.acc ≠ .ip := by decide
  refine ⟨_, execAddR1R2_next s, ?sum, State.setReg_advance_addr _ 1 hacc, s.setReg_advance_changesOnly .acc _ 1⟩
  case sum => rw [State.setReg_advance_reg_self _ 1 hacc, BitVec.toNat_add]

end Sys2Proof.Machine
end

section
/-! SUPPORT. Registers that no step reads: how register writes commute, that a step commutes with a write of such a
register or overwrites it, and the statements about `R3` to `R8` and `ACC`. -/

namespace Sys2Proof.Machine

variable {s t : State} {r q : Reg}

/-! ### Register writes -/

/-- A register file is what its ten registers read as. -/
theorem RegFile.ext_get {f g : RegFile} (h : ∀ r, f.get r = g.get r) : f = g := by
  cases f
  cases g
  rw [RegFile.mk.injEq]
  exact ⟨h .ip, h .acc, h .r1, h .r2, h .r3, h .r4, h .r5, h .r6, h .r7, h .r8⟩

/-- Writes of two registers commute. -/
theorem State.setReg_comm (s : State) (v w : Word) (hne : r ≠ q) :
    (s.setReg r v).setReg q w = (s.setReg q w).setReg r v := by
  have hregs : (s.regs.set r v).set q w = (s.regs.set q w).set r v := RegFile.ext_get fun x => by
    simp only [RegFile.get_set]
    by_cases hq : x = q
    · rw [if_pos hq, if_neg (hq ▸ hne.symm), if_pos hq]
    · rw [if_neg hq, if_neg hq]
  exact congrArg (fun g => { s with regs := g }) hregs

/-- The later of two writes of one register is all that remains (10_state.md R12). -/
theorem State.setReg_setReg_self (s : State) (v w : Word) : (s.setReg r v).setReg r w = s.setReg r w := by
  have hregs : (s.regs.set r v).set r w = s.regs.set r w := RegFile.ext_get fun x => by
    simp only [RegFile.get_set]
    split <;> rfl
  exact congrArg (fun g => { s with regs := g }) hregs

/-- The sequencer commutes with a write of any register but `IP`. -/
theorem State.setReg_advance_comm (s : State) (v : Word) (w : Nat) (hip : r ≠ .ip) :
    (s.setReg r v).advance w = (s.advance w).setReg r v := by
  rw [State.advance, State.setReg_reg, if_neg hip.symm, s.setReg_comm _ _ hip]
  rfl

/-! ### What a step reads -/

/-- The value an instruction writes to its destination (41_data_movement.md R80, R81; 42_arithmetic.md R83). -/
def writtenValue (i : Instr) (s : State) : Word :=
  match i with
  | .movR1 imm => imm
  | .movR2 imm => imm
  | .addR1R2 => add16 (s.reg .r1) (s.reg .r2)

theorem exec_eq_next (i : Instr) (s : State) :
    exec i s = .next ((s.setReg (destination i.opcode) (writtenValue i s)).advance i.opcode.width) := by
  cases i <;> rfl

/-- The values written depend on `R1` and `R2` alone. -/
theorem writtenValue_setReg (i : Instr) (s : State) (v : Word) (h1 : r ≠ .r1) (h2 : r ≠ .r2) :
    writtenValue i (s.setReg r v) = writtenValue i s := by
  cases i with
  | movR1 imm => rfl
  | movR2 imm => rfl
  | addR1R2 => simp only [writtenValue, State.setReg_reg, if_neg h1.symm, if_neg h2.symm]

/-- The fetch reads `IP` and memory alone. -/
theorem State.fetch_setReg (s : State) (v : Word) (hip : r ≠ .ip) : (s.setReg r v).fetch = s.fetch := by
  have haddr : (s.setReg r v).addr = s.addr := by rw [State.addr, State.setReg_reg, if_neg hip.symm, State.addr]
  have hread : (s.setReg r v).read8 = s.read8 := funext fun a => s.setReg_read8 r v a
  simp only [State.fetch, State.fetchMove, State.fetchImm, State.read16, haddr, hread]

/-- A step commutes with a write of a register that is none of `IP`, `R1` and `R2`, unless it is the step that
overwrites `ACC`. -/
theorem step_setReg_unread (v : Word) (hr : r ∉ [Reg.ip, .r1, .r2]) (h : step s = .next t) :
    (t.reg r = s.reg r ∧ step (s.setReg r v) = .next (t.setReg r v)) ∨
      (r = .acc ∧ step (s.setReg r v) = .next t) := by
  obtain ⟨hip, h1, h2⟩ : r ≠ .ip ∧ r ≠ .r1 ∧ r ≠ .r2 := by simpa using hr
  have hfetch := s.fetch_setReg v hip
  obtain ⟨hrun, ⟨f, hf, rfl⟩ | ⟨i, _, hi, hexec, _⟩⟩ := step_next_cases h
  · exact .inl ⟨s.latch_reg r f, step_fetch_error hrun (hfetch.trans hf)⟩
  · have hstep : step (s.setReg r v) = exec i (s.setReg r v) := step_fetch_ok hrun (hfetch.trans hi)
    rw [exec_eq_next] at hexec
    cases hexec
    rw [hstep, exec_eq_next, writtenValue_setReg i s v h1 h2]
    by_cases hd : r = destination i.opcode
    · have hacc : r = .acc := by
        cases i with
        | movR1 imm => exact absurd hd h1
        | movR2 imm => exact absurd hd h2
        | addR1R2 => exact hd
      exact .inr ⟨hacc, by rw [hd, State.setReg_setReg_self]⟩
    · refine .inl ⟨?_, by rw [s.setReg_comm _ _ hd, State.setReg_advance_comm _ _ _ hip]⟩
      rw [State.advance_reg, if_neg hip, State.setReg_reg, if_neg hd]

/-! ### The statements -/

/-- Settles O26: `R3` to `R8` are neither read nor any instruction's destination, and the latch test reads no
register. -/
theorem unusedRegistersDoNotMatter : Obligations.UnusedRegistersDoNotMatter := by
  intro s r v hr
  have hunused : ∀ x ∈ [Reg.r3, .r4, .r5, .r6, .r7, .r8], x ∉ [Reg.ip, .r1, .r2] ∧ x ≠ .acc := by decide
  obtain ⟨hunread, hacc⟩ := hunused r hr
  refine ⟨fun t h => ?commutes, fun f h => step_latched ((s.setReg_fault r v).trans (step_eq_fault_iff.1 h))⟩
  case commutes => exact (step_setReg_unread v hunread h).resolve_right fun hover => hacc hover.1

/-- Settles O27: a step that leaves `ACC` alone carries the other value along, and a step that writes `ACC` forgets
it. -/
theorem accIsNeverRead : Obligations.AccIsNeverRead := by
  intro s v t h
  obtain ⟨hkept, h'⟩ | ⟨_, h'⟩ := step_setReg_unread (r := .acc) v (by decide) h
  · refine ⟨t.setReg .acc v, h', fun r hr => ?_, ⟨rfl, fun _ => rfl⟩, rfl, .inr ⟨hkept, ?_⟩⟩
    · rw [State.setReg_reg, if_neg hr]
    · rw [State.setReg_reg, if_pos rfl]
  · exact ⟨t, h', fun _ _ => rfl, ⟨rfl, fun _ => rfl⟩, rfl, .inl rfl⟩

end Sys2Proof.Machine
end

section
/-! SUPPORT. The sequencer: where a success leaves `IP`, that the instruction fetched lies below `LEN`, and the
statement about both. -/

namespace Sys2Proof.Machine

variable {s t : State} {i : Instr}

/-! ### `IP` after a success -/

theorem destination_ne_ip (op : Opcode) : destination op ≠ .ip := by
  cases op <;> decide

/-- A success advances `IP` by the width of the instruction it fetched (40_fetch_decode_step.md R71). -/
theorem succeeds_addr (h : Succeeds s t) :
    ∃ i, s.fetch = .ok i ∧ t.addr = (s.addr + i.opcode.width) % 65536 := by
  obtain ⟨_, i, v, hfetch, _, rfl⟩ := succeeds_cases h
  exact ⟨i, hfetch, State.setReg_advance_addr v _ (destination_ne_ip _)⟩

/-- An operand fetch that succeeds has read both operand bytes below `LEN`. -/
theorem State.fetchMove_ok_lt_len {make : Word → Instr} (h : s.fetchMove make = .ok i) : s.addr + 2 < s.len := by
  obtain ⟨_, e⟩ | ⟨_, e⟩ | ⟨hlen, _⟩ := s.fetchMove_cases make
  · cases e.symm.trans h
  · cases e.symm.trans h
  · exact hlen

/-- A fetch that succeeds has read all its bytes below `LEN`. -/
theorem State.fetch_ok_le_len (h : s.fetch = .ok i) : s.addr + i.opcode.width ≤ s.len := by
  obtain ⟨_, e⟩ | ⟨_, _, _, e⟩ | ⟨_, e⟩ | ⟨_, e⟩ | ⟨hb, e⟩ := s.fetch_cases <;> rw [e] at h
  · cases h
  · cases h
  · obtain ⟨imm, rfl⟩ := State.fetchMove_ok h
    exact State.fetchMove_ok_lt_len h
  · obtain ⟨imm, rfl⟩ := State.fetchMove_ok h
    exact State.fetchMove_ok_lt_len h
  · cases h
    exact (State.read8_ok hb).1

/-! ### The statement -/

/-- Settles O28: the width is that of the opcode byte fetched, and the sum does not wrap where the whole instruction
lies below a `LEN` of at most 65535. -/
theorem sequencerAdvancesByWidth : Obligations.SequencerAdvancesByWidth := by
  intro s t h
  obtain ⟨i, hfetch, haddr⟩ := succeeds_addr h
  refine ⟨?byOpcode, fun hlen => ?upward⟩
  case byOpcode =>
    obtain ⟨b, hb, hop⟩ := State.fetch_ok_opcode hfetch
    obtain ⟨rfl, e⟩ | ⟨rfl, e⟩ | ⟨rfl, e⟩ := decodeOpcode_eq_some hop <;> rw [e] at haddr
    · exact .inr ⟨.inl hb, haddr⟩
    · exact .inr ⟨.inr hb, haddr⟩
    · exact .inl ⟨hb, haddr⟩
  case upward =>
    have hinside := State.fetch_ok_le_len hfetch
    have hpos : 0 < i.opcode.width := Nat.add_pos_left Nat.one_pos _
    rw [haddr, Nat.mod_eq_of_lt (by omega)]
    omega

end Sys2Proof.Machine
end

section
/-! SUPPORT. Runs: that every run answers, how runs compose, the ring of additions, and the statements about runs. -/

namespace Sys2Proof.Machine

variable {s t u : State} {k n : Nat}

/-! ### Results and the steps before them -/

theorem RunResult.after_injective (n : Nat) : Function.Injective (RunResult.after n) := by
  rintro (⟨f, k⟩ | k) (⟨f', k'⟩ | k') h
  · simpa [RunResult.after] using h
  · cases h
  · cases h
  · simpa [RunResult.after] using h

/-- A result with its steps counted from further back belongs to the same run. -/
theorem map_after_eq_ok {x : Except Refusal (State × RunResult)} {res : RunResult} :
    (x.map fun p => (p.1, p.2.after n)) = .ok (u, res.after n) ↔ x = .ok (u, res) := by
  cases x with
  | error r => exact ⟨nofun, nofun⟩
  | ok p => simp only [Except.map, Except.ok.injEq, Prod.ext_iff, (RunResult.after_injective n).eq_iff]

/-- One successful step counts one more in the run that faults (40_fetch_decode_step.md R76). -/
theorem run_succ_eq_faulted_iff {f : Fault} (h : Succeeds s t) :
    run (k + 1) s = .ok (u, .faulted f (n + 1)) ↔ run k t = .ok (u, .faulted f n) := by
  rw [run_succ_of_succeeds k h, Nat.add_comm n 1]
  exact map_after_eq_ok (res := .faulted f n)

/-- One successful step counts one more in the run that exhausts its budget (40_fetch_decode_step.md R76). -/
theorem run_succ_eq_budgetExhausted_iff (h : Succeeds s t) :
    run (k + 1) s = .ok (u, .budgetExhausted (n + 1)) ↔ run k t = .ok (u, .budgetExhausted n) := by
  rw [run_succ_of_succeeds k h, Nat.add_comm n 1]
  exact map_after_eq_ok (res := .budgetExhausted n)

/-! ### How a run ends -/

/-- Every run answers: a fault within its budget, with the latch set, or the whole budget used. -/
theorem run_answers (k : Nat) (s : State) :
    ∃ t, (∃ f n, run k s = .ok (t, .faulted f n) ∧ n < k ∧ t.fault = some f) ∨
      (run k s = .ok (t, .budgetExhausted k) ∧ (s.fault = none → t.fault = none)) := by
  induction k generalizing s with
  | zero => exact ⟨s, .inr ⟨run_zero s, id⟩⟩
  | succ k ih =>
    obtain ⟨t, hok, _⟩ | ⟨t, f, hf, _⟩ | ⟨f, hf, _⟩ := stepTransaction_cases s
    · obtain ⟨u, ⟨f, n, hrun, hn, hlatch⟩ | ⟨hrun, hlatch⟩⟩ := ih t
      · exact ⟨u, .inl ⟨f, n + 1, (run_succ_eq_faulted_iff hok).2 hrun, Nat.succ_lt_succ hn, hlatch⟩⟩
      · exact ⟨u, .inr ⟨(run_succ_eq_budgetExhausted_iff hok).2 hrun, fun _ => hlatch hok.2⟩⟩
    · exact ⟨t, .inl ⟨f, 0, run_succ_of_faults k hf, k.succ_pos, hf.2⟩⟩
    · exact ⟨s, .inl ⟨f, 0, run_succ_of_latched k hf, k.succ_pos, hf⟩⟩

/-- A run that exhausts its budget has counted all of it. -/
theorem run_budgetExhausted_count (h : run n s = .ok (t, .budgetExhausted k)) : k = n := by
  obtain ⟨u, ⟨f, m, e, _⟩ | ⟨e, _⟩⟩ := run_answers n s
  · cases e.symm.trans h
  · cases e.symm.trans h
    rfl

/-! ### Composition -/

/-- The loop taken up for `n` more steps where a run has left it: a fault has ended it. -/
def continueRun (n : Nat) : Except Refusal (State × RunResult) → Except Refusal (State × RunResult)
  | .ok (t, .budgetExhausted k) => runFrom k n t
  | .ok (t, .faulted f k) => .ok (t, .faulted f k)
  | .error r => .error r

/-- The loop of `m + n` steps is the loop of `m`, continued. -/
theorem runFrom_append (c m n : Nat) (s : State) : runFrom c (m + n) s = continueRun n (runFrom c m s) := by
  induction m generalizing c s with
  | zero =>
    rw [Nat.zero_add]
    rfl
  | succ m ih =>
    rw [Nat.succ_add, runFrom, runFrom]
    obtain ⟨t, _, e⟩ | ⟨t, f, _, e⟩ | ⟨f, _, e⟩ := stepTransaction_cases s <;> rw [e]
    · exact ih (c + 1) t
    · rfl
    · rfl

theorem run_add_of_faulted {f : Fault} {m : Nat} (n : Nat) (h : run m s = .ok (t, .faulted f k)) :
    run (m + n) s = .ok (t, .faulted f k) :=
  (runFrom_append 0 m n s).trans (congrArg (continueRun n) h)

theorem run_add_of_budgetExhausted {m : Nat} {res : RunResult} (h : run m s = .ok (t, .budgetExhausted k))
    (h' : run n t = .ok (u, res)) : run (m + n) s = .ok (u, res.after m) := by
  cases run_budgetExhausted_count h
  have hcont : run (k + n) s = runFrom k n t := (runFrom_append 0 k n s).trans (congrArg (continueRun n) h)
  exact hcont.trans ((runFrom_add k 0 n t).trans (map_after_eq_ok.2 h'))

/-! ### Termination -/

/-- Where `LEN` is at most 65535, each success brings `IP` nearer to `LEN`, so a fault comes within `LEN - IP` steps
(40_fetch_decode_step.md, section 6). -/
theorem run_faults_within_len (hrun : s.fault = none) (hlen : s.len ≤ 65535) :
    ∃ f n t, n ≤ s.len - s.addr ∧ t.fault = some f ∧
      ∀ budget, n < budget → run budget s = .ok (t, .faulted f n) := by
  induction hd : s.len - s.addr using Nat.strong_induction_on generalizing s with
  | _ d ih =>
    obtain ⟨t, hok, _⟩ | ⟨t, f, hf, _⟩ | ⟨f, hf, _⟩ := stepTransaction_cases s
    · have hsame : t.len = s.len := (step_sameMemory hok.1).1
      obtain ⟨hup, htop⟩ := (sequencerAdvancesByWidth s t hok).2 hlen
      obtain ⟨f, n, u, hn, hlatch, hbudget⟩ := ih (t.len - t.addr) (by omega) hok.2 (by omega) rfl
      refine ⟨f, n + 1, u, by omega, hlatch, ?_⟩
      exact fun | k + 1, hk => (run_succ_eq_faulted_iff hok).2 (hbudget k (Nat.lt_of_succ_lt_succ hk))
    · exact ⟨f, 0, t, Nat.zero_le _, hf.2, fun | k + 1, _ => run_succ_of_faults k hf⟩
    · cases hrun.symm.trans hf

/-! ### The ring of additions -/

/-- A running core whose every address reads as `ADD_R1_R2` (95_test_vectors.md T8). -/
def State.AddRing (s : State) : Prop := s.fault = none ∧ ∀ a, a < 65536 → s.read8 a = .ok 0x12

/-- A step in the ring succeeds, stays in the ring and moves `IP` by one (the spec's decision D5). -/
theorem State.AddRing.succeeds (h : s.AddRing) :
    ∃ t, Succeeds s t ∧ t.AddRing ∧ t.addr = (s.addr + 1) % 65536 := by
  obtain ⟨hrun, hbytes⟩ := h
  obtain ⟨t, hstep, _, haddr, _, ⟨_, hmem⟩, hfault⟩ := addStep s hrun (hbytes s.addr s.addr_lt)
  have ht : t.fault = none := hfault.trans hrun
  exact ⟨t, ⟨hstep, ht⟩, ⟨ht, fun a ha => (hmem a).trans (hbytes a ha)⟩, haddr⟩

theorem State.AddRing.safeFor (h : s.AddRing) (n : Nat) : SafeFor n s := by
  induction n generalizing s with
  | zero => trivial
  | succ n ih =>
    obtain ⟨t, hok, ht, _⟩ := h.succeeds
    exact ⟨t, hok, ih ht⟩

theorem State.AddRing.run (h : s.AddRing) (n : Nat) :
    ∃ t, run n s = .ok (t, .budgetExhausted n) ∧ t.addr = (s.addr + n) % 65536 := by
  induction n generalizing s with
  | zero => exact ⟨s, rfl, (Nat.mod_eq_of_lt s.addr_lt).symm⟩
  | succ n ih =>
    obtain ⟨t, hok, ht, haddr⟩ := h.succeeds
    obtain ⟨u, hrun, hu⟩ := ih ht
    exact ⟨u, (run_succ_eq_budgetExhausted_iff hok).2 hrun, by omega⟩

/-! ### The RUN transaction -/

theorem transact_run {h : Session} {res : RunResult} (e : run k h.core = .ok (t, res)) :
    transact (.run k) h = .ok ({ core := t, loadOpen := h.loadOpen && k == 0 }, .ran res) := by
  simp only [transact, e]

/-! ### The statements -/

/-- Settles O30: the bound by induction on `LEN - IP`; the unbounded run is the run with one step more than it takes. -/
theorem runFaultsWithinLen : Obligations.RunFaultsWithinLen := by
  intro s hrun hlen
  obtain ⟨f, n, t, hn, hlatch, hbudget⟩ := run_faults_within_len hrun hlen
  exact ⟨f, n, t, hn, hlatch, ⟨n + 1, hbudget (n + 1) n.lt_succ_self⟩, hbudget⟩

/-- Settles O31: by induction along the ring, which every step keeps. -/
theorem fullRingOfAddsNeverFaults : Obligations.FullRingOfAddsNeverFaults := by
  intro s hrun _ hbytes n
  have hring : s.AddRing := ⟨hrun, hbytes⟩
  exact ⟨hring.safeFor n, hring.run n⟩

/-- Settles O32: the loop's cases by its equations, the answer by induction on the budget, and composition by the loop
continued. -/
theorem runIsItsSteps : Obligations.RunIsItsSteps := by
  refine ⟨run_zero, fun _ _ k h u => ⟨?faulted, ?exhausted⟩, fun _ _ _ k h => run_succ_of_faults k h,
    fun _ _ k h => run_succ_of_latched k h, run_answers, fun m n s t => ?composed,
    fun _ _ _ _ e => ⟨_, transact_run e, rfl⟩⟩
  case faulted => exact fun f n => run_succ_eq_faulted_iff h
  case exhausted => exact fun n => run_succ_eq_budgetExhausted_iff h
  case composed =>
    refine ⟨fun f k h => run_add_of_faulted n h, fun k h => ⟨run_budgetExhausted_count h, ?_, ?_⟩⟩
    · exact fun u f j h' => run_add_of_budgetExhausted h h'
    · exact fun u j h' => run_add_of_budgetExhausted h h'

end Sys2Proof.Machine
end

section
/-! SUPPORT. Host accesses of memory: what reads and writes answer, the transactions over them, and the statements about
MEM_READ, MEM_WRITE and the fetch after a host write. -/

namespace Sys2Proof.Machine

variable {s t : State} {a x : Nat} {d : Datum} {f : Fault}

/-! ### The write primitives -/

theorem State.write8_of_lt (b : Byte) (h : a < s.len) : s.write8 a b = .ok (s.putByte a b) := if_pos h

theorem State.write8_of_le (b : Byte) (h : s.len ≤ a) : s.write8 a b = .error (.outOfBounds a) := if_neg (by omega)

theorem State.write16_of_le (v : Word) (h : s.len ≤ a) : s.write16 a v = .error (.outOfBounds a) := if_pos (by omega)

theorem State.write16_of_eq (v : Word) (h : s.len = a + 1) : s.write16 a v = .error (.outOfBounds (a + 1)) := by
  rw [State.write16, if_neg (by omega), if_pos (by omega)]

theorem State.write16_of_lt (v : Word) (h : a + 1 < s.len) :
    s.write16 a v = .ok ((s.putByte a (hiByte v)).putByte (a + 1) (loByte v)) := by
  rw [State.write16, if_neg (by omega), if_neg (by omega)]

/-- The first address out of range is the one both two-byte accesses name (the spec's decision D6). -/
theorem State.access16_of_le (h : s.len ≤ a + 1) :
    ∃ k, s.len ≤ k ∧ s.read16 a = .error (.outOfBounds k) ∧ ∀ v, s.write16 a v = .error (.outOfBounds k) := by
  by_cases ha : s.len ≤ a
  · exact ⟨a, ha, State.read16_of_le ha, fun v => State.write16_of_le v ha⟩
  · have hlen : s.len = a + 1 := by omega
    exact ⟨a + 1, h, State.read16_of_eq hlen, fun v => State.write16_of_eq v hlen⟩

/-! ### What is read after a write -/

theorem State.seenAfter_byte_self (b : Byte) : s.seenAfter a (.byte b) a = .ok b := if_pos rfl

theorem State.seenAfter_byte_ne (b : Byte) (hx : x ≠ a) : s.seenAfter a (.byte b) x = s.read8 x := if_neg hx

theorem State.seenAfter_word_high (v : Word) : s.seenAfter a (.word v) a = .ok (hiByte v) := by
  rw [hiByte_eq]
  exact if_pos rfl

theorem State.seenAfter_word_low (v : Word) : s.seenAfter a (.word v) (a + 1) = .ok (loByte v) := by
  rw [loByte_eq, State.seenAfter, if_neg (Nat.succ_ne_self a), if_pos rfl]

theorem State.seenAfter_word_ne (v : Word) (hx : x ≠ a) (hx' : x ≠ a + 1) :
    s.seenAfter a (.word v) x = s.read8 x := by
  simp only [State.seenAfter, if_neg hx, if_neg hx']

/-! ### MEM_READ and MEM_WRITE -/

/-- A two-byte MEM_READ in range returns its value (50_interfaces.md R98). -/
theorem transact_memRead_two {h : Session} {v : Word} (hv : h.core.read16 a = .ok v) :
    transact (.memRead a .two) h = .ok (h, .mem (.word v)) := by
  simp only [transact, State.hostRead, hv]

/-- A MEM_READ that fails returns its fault and changes nothing (50_interfaces.md R98). -/
theorem transact_memRead_failed {h : Session} {w : AccessWidth} (e : h.core.hostRead a w = .error f) :
    transact (.memRead a w) h = .ok (h, .failed f) := by
  simp only [transact, e]

/-- A MEM_WRITE that succeeds stores its state and leaves whether LOAD is allowed as it was (50_interfaces.md R99). -/
theorem transact_memWrite_ok (o : Bool) (e : s.hostWrite a d = .ok t) :
    transact (.memWrite a d) { core := s, loadOpen := o } = .ok ({ core := t, loadOpen := o }, .done) := by
  simp only [transact, e]

/-- A MEM_WRITE that fails returns its fault and changes nothing (50_interfaces.md R99). -/
theorem transact_memWrite_failed {h : Session} (e : h.core.hostWrite a d = .error f) :
    transact (.memWrite a d) h = .ok (h, .failed f) := by
  simp only [transact, e]

/-! ### The statements -/

/-- Settles O33: the primitive split by which byte is out of range; MEM_READ returns what the primitive answers. -/
theorem twoByteRead : Obligations.TwoByteRead := by
  refine ⟨fun s a => ⟨State.read16_of_le, State.read16_of_eq, fun h => ?inRange, fun hi lo hhi hlo => ?value⟩,
    fun h a => ⟨fun _ => transact_memRead_one, fun _ => transact_memRead_two⟩⟩
  case inRange => exact ⟨_, State.read16_of_read8 (State.read8_of_lt (Nat.lt_of_succ_lt h)) (State.read8_of_lt h)⟩
  case value => exact ⟨_, State.read16_of_read8 hhi hlo, joinBytes_toNat hi lo⟩

/-- Settles O34: the effect is that of a host write of one byte. -/
theorem byteWrite : Obligations.ByteWrite := by
  intro s a b hm
  refine ⟨State.write8_of_le b, fun ha => ?effect⟩
  case effect =>
    have hwrite : s.hostWrite a (.byte b) = .ok (s.putByte a b) := State.write8_of_lt b ha
    obtain ⟨_, hlen, hregs, hfault, hread⟩ := State.hostWrite_ok hm hwrite
    exact ⟨_, hwrite, (hread a).trans (State.seenAfter_byte_self b),
      fun x hx => (hread x).trans (State.seenAfter_byte_ne b hx), hlen, hregs, hfault,
      fun o => transact_memWrite_ok o hwrite⟩

/-- Settles O35: the effect is that of a host write of two bytes, whose halves join to the value written. -/
theorem twoByteWrite : Obligations.TwoByteWrite := by
  intro s a v hm
  refine ⟨State.write16_of_le v, State.write16_of_eq v, fun ha => ?effect⟩
  case effect =>
    have hwrite : s.hostWrite a (.word v) = .ok _ := State.write16_of_lt v ha
    obtain ⟨_, hlen, hregs, hfault, hread⟩ := State.hostWrite_ok hm hwrite
    have hhigh := (hread a).trans (State.seenAfter_word_high v)
    have hlow := (hread (a + 1)).trans (State.seenAfter_word_low v)
    have hwhole := State.read16_of_read8 hhigh hlow
    rw [joinBytes_hiByte_loByte] at hwhole
    exact ⟨_, hwrite, hwhole, hhigh.trans (congrArg Except.ok (hiByte_eq v)), hlow,
      fun x hx hx' => (hread x).trans (State.seenAfter_word_ne v hx hx'), hlen, hregs, hfault,
      fun o => transact_memWrite_ok o hwrite⟩

/-- Settles O41: each access answers the fault of its primitive, and the session is returned as it was. -/
theorem hostAccessOutOfBounds : Obligations.HostAccessOutOfBounds := by
  intro h a
  refine ⟨fun ha => ⟨transact_memRead_failed ?_, fun b => transact_memWrite_failed (State.write8_of_le b ha)⟩,
    fun ha => ?twoBytes⟩
  · rw [State.hostRead, State.read8_of_le ha]
  case twoBytes =>
    obtain ⟨k, hk, hread, hwrite⟩ := State.access16_of_le ha
    refine ⟨k, hk, transact_memRead_failed ?_, fun v => transact_memWrite_failed (hwrite v)⟩
    rw [State.hostRead, hread]

/-- Settles O29: after the write memory reads as `seenAfter` says, with `IP`, `LEN` and the latch as before, so every
clause is one about the bytes the next fetch reads. -/
theorem nextFetchSeesHostWrite : Obligations.NextFetchSeesHostWrite := by
  refine ⟨fun _ _ => step_sameMemory, fun h h' a d hm hrun e => ?afterWrite⟩
  case afterWrite =>
    obtain ⟨_, hlen, hregs, hfault, hread⟩ := State.hostWrite_ok hm (transact_memWrite_done e).1
    have haddr : h'.core.addr = h.core.addr := by rw [State.addr, State.reg, hregs, State.addr, State.reg]
    have hrun' : h'.core.fault = none := hfault.trans hrun
    simp only [← hread, ← haddr, ← hlen]
    refine ⟨fun _ => trivial, fun hadd => ?add, fun hi lo imm hhi hlo himm => ?moves,
      fun hmove => ⟨fun hend => ?firstMissing, fun hend => ?secondMissing⟩, fun b hb h10 h11 h12 => ?unknown⟩
    case add => exact step_fetch_ok hrun' (State.fetch_addR1R2 hadd)
    case moves =>
      have himm' : joinBytes hi lo = imm := BitVec.eq_of_toNat_eq ((joinBytes_toNat hi lo).trans himm.symm)
      have hoperands := fun make => himm' ▸ State.fetchMove_of_read8 make hhi hlo
      exact ⟨fun hop => step_fetch_ok hrun' ((State.fetch_movR1 hop).trans (hoperands _)),
        fun hop => step_fetch_ok hrun' ((State.fetch_movR2 hop).trans (hoperands _))⟩
    case firstMissing => exact (faults_iff_fetchFault hrun').2 (.firstOperandMissing hmove hend)
    case secondMissing =>
      exact (faults_iff_fetchFault hrun').2 (.secondOperandMissing hmove (by omega) hend.le)
    case unknown =>
      exact (faults_iff_fetchFault hrun').2 (.unknownOpcode hb (decodeOpcode_eq_none.2 ⟨h10, h11, h12⟩))

end Sys2Proof.Machine
end

section
/-! SUPPORT. LOAD, launch and REG_WRITE: when a LOAD is answered, what closes it, and the statements about them. -/

namespace Sys2Proof.Machine

variable {h h' : Session} {image : List Byte}

/-! ### LOAD -/

theorem transact_load_ok (hopen : h.loadOpen = true) (hlen : image.length ≤ 65536) :
    transact (.load image) h = .ok ({ core := h.core.load image, loadOpen := false }, .done) := by
  simp [transact, hopen, imageWellFormed, hlen]

theorem transact_load_imageTooLong (hopen : h.loadOpen = true) (hlen : 65536 < image.length) :
    transact (.load image) h = .error (.imageTooLong image.length) := by
  simp [transact, hopen, imageWellFormed, hlen]

theorem transact_load_closed (hclosed : h.loadOpen = false) (image : List Byte) :
    transact (.load image) h = .error .loadNotAllowed := by
  simp [transact, hclosed]

/-- An answered LOAD closes the session to LOAD (70_reset_and_hazards.md R133). -/
theorem transact_load_closes {r : Response} (e : transact (.load image) h = .ok (h', r)) : h'.loadOpen = false := by
  cases hopen : h.loadOpen with
  | false => cases (transact_load_closed hopen image).symm.trans e
  | true =>
    obtain hlen | hlen := Nat.lt_or_ge 65536 image.length
    · cases (transact_load_imageTooLong hopen hlen).symm.trans e
    · cases (transact_load_ok hopen hlen).symm.trans e
      rfl

/-- STEP closes the session to LOAD, whatever the step answers. -/
theorem transact_step_closes {r : Response} (e : transact .step h = .ok (h', r)) : h'.loadOpen = false := by
  obtain ⟨t, res, e', _⟩ := stepTransaction_answers h.core
  cases (transact_step h.loadOpen e').symm.trans e
  rfl

/-- A RUN that may take a step closes the session to LOAD. -/
theorem transact_run_closes {n : Nat} {r : Response} (e : transact (.run (n + 1)) h = .ok (h', r)) :
    h'.loadOpen = false := by
  obtain ⟨t, ⟨f, m, e', _⟩ | ⟨e', _⟩⟩ := run_answers (n + 1) h.core <;>
    cases (transact_run e').symm.trans e <;> exact Bool.and_false _

/-- Only RESET opens a closed session. -/
theorem transact_keeps_closed {tx : Transaction} {r : Response} (hclosed : h.loadOpen = false)
    (e : transact tx h = .ok (h', r)) (hne : tx ≠ .reset) : h'.loadOpen = false := by
  cases transact_effect e with
  | reset => exact absurd rfl hne
  | run => exact (congrArg (· && _) hclosed).trans (Bool.false_and _)
  | load | step => rfl
  | regWrite | memWrite | nothing => exact hclosed

/-! ### The statements -/

/-- Settles O37: the three answers of LOAD, the effect by the laws of the loaded state. -/
theorem loadTransaction : Obligations.LoadTransaction := by
  intro h image
  refine ⟨fun hopen hlen => ?loaded, transact_load_imageTooLong, fun hclosed => transact_load_closed hclosed image⟩
  case loaded =>
    exact ⟨_, transact_load_ok hopen hlen, h.core.load_len image, h.core.load_read8 image,
      fun r => h.core.load_reg r image, h.core.load_fault image⟩

/-- Settles O38: each of the three closes the session, and a closed session refuses LOAD. -/
theorem loadOnlyOnceBeforeSteps : Obligations.LoadOnlyOnceBeforeSteps := by
  refine ⟨fun tx h h' r e htx => transact_load_closed ?closed,
    fun tx h h' r e hclosed hne => transact_keeps_closed hclosed e hne⟩
  case closed =>
    obtain rfl | ⟨image, rfl⟩ | ⟨n, rfl⟩ := htx
    · exact transact_step_closes e
    · exact transact_load_closes e
    · exact transact_run_closes e

/-- Settles O39: RESET opens the session to the LOAD, whose effect on the reset state is the launch state. -/
theorem launchState : Obligations.LaunchState := fun _ image hlen =>
  ⟨⟨_, _, rfl, transact_load_ok rfl hlen, rfl⟩, fun r => (State.reset.load_reg r image).trans (State.reset_reg r),
    State.reset.load_len image, State.reset.load_read8 image,
    (State.reset.load_fault image).trans State.reset_fault⟩

/-- Settles O40: REG_WRITE is the register write of the core, in a session otherwise as it was. -/
theorem regWriteTransaction : Obligations.RegWriteTransaction := by
  intro h r v
  obtain ⟨hsame, hframe⟩ := registerWrite h.core r v
  exact ⟨_, rfl, hsame, hframe, rfl⟩

end Sys2Proof.Machine
end

section
/-! SUPPORT. Codes of the host port: the latch read back from its port record, and the statements about the latch's
codes and the register numbers. -/

namespace Sys2Proof.Machine

/-! ### The latch -/

/-- The latch a port record shows (60_exceptions.md R106). -/
def FaultPort.toLatch (p : FaultPort) : Option Fault :=
  if p.kind = 0 then none
  else if p.kind = 1 then some (.unknownOpcode p.byte p.addr.toNat)
  else some (.outOfBounds p.addr.toNat)

/-- An address in its range fits the 17 bits of the port. -/
theorem toNat_ofNat_of_le {a : Nat} (ha : a ≤ 65536) : (BitVec.ofNat 17 a).toNat = a := by
  rw [BitVec.toNat_ofNat, Nat.mod_eq_of_lt (by omega)]

/-- The port record gives back a latch whose address is in its range (the spec's decision D8). -/
theorem faultPort_toLatch {latch : Option Fault} (hrange : ∀ f, latch = some f → f.addr ≤ 65536) :
    (faultPort latch).toLatch = latch := by
  match latch with
  | none => rfl
  | some (.unknownOpcode b a) =>
    have ha : (BitVec.ofNat 17 a).toNat = a := toNat_ofNat_of_le (hrange _ rfl)
    simp [faultPort, FaultPort.toLatch, ha]
  | some (.outOfBounds a) =>
    have ha : (BitVec.ofNat 17 a).toNat = a := toNat_ofNat_of_le (hrange _ rfl)
    simp [faultPort, FaultPort.toLatch, ha]

theorem faultPort_kind_ne_three (latch : Option Fault) : (faultPort latch).kind ≠ 3 := by
  match latch with
  | none => decide
  | some (.unknownOpcode _ _) => exact show (1 : BitVec 2) ≠ 3 by decide
  | some (.outOfBounds _) => exact show (2 : BitVec 2) ≠ 3 by decide

/-! ### The statements -/

/-- Settles O45: two records that agree give back the same latch. -/
theorem portCodesAreFaithful : Obligations.PortCodesAreFaithful := by
  refine ⟨fun s s' hs hs' hport => ?sameFault, faultPort_kind_ne_three, rfl, fun _ _ => rfl, fun _ => rfl⟩
  case sameFault =>
    calc s.fault
      _ = (faultPort s.fault).toLatch := (faultPort_toLatch hs.2).symm
      _ = (faultPort s'.fault).toLatch := by rw [hport]
      _ = s'.fault := faultPort_toLatch hs'.2

/-- Settles O46: each register by evaluation; from 10 up the list of registers has ended. -/
theorem registerNumbers : Obligations.RegisterNumbers := by
  refine ⟨fun r => ?named, fun n hn => List.getElem?_eq_none hn, rfl⟩
  case named => cases r <;> rfl

end Sys2Proof.Machine
end
